-- ==== Sys2Proof/Word.lean ====
section
/-! DEFINITION. The widths of the machine's values (00_scope.md R6, R12, R13). -/

namespace Sys2Proof

/-- A byte of memory, a general register, a timer (R6, R12). -/
abbrev Byte := BitVec 8

/-- An instruction word, and the width of I, PC and a stack entry (R12, R70). -/
abbrev Word := BitVec 16

/-- The 12-bit address field `nnn` (R71). -/
abbrev Addr := BitVec 12

/-- A 4-bit field (R13). -/
abbrev Nibble := BitVec 4

/-- The number of a general register V0..VF (R6, R20). -/
abbrev Reg := Fin 16

end Sys2Proof
end

