-- ==== Sys2Proof/Syntax.lean ====
section
/-! DEFINITION. The instructions: one constructor for each row of spec/opcode_table.json, in its order
(30_encoding.md R75–R79). The operands are the row's fields, at the field's own width (R71), so an
operand that does not fit its field cannot be written. The words that match no row (UNKNOWN, R82) are
no instruction and have no constructor (assumption log 15). -/

namespace Sys2Proof

inductive Instr where
  /-- `CLS` (R145) -/
  | cls
  /-- `RET` (R102) -/
  | ret
  /-- `JP addr` (R100) -/
  | jp (nnn : Addr)
  /-- `CALL addr` (R101) -/
  | call (nnn : Addr)
  /-- `SE Vx, byte` (R103) -/
  | seByte (x : Reg) (kk : Byte)
  /-- `SNE Vx, byte` (R104) -/
  | sneByte (x : Reg) (kk : Byte)
  /-- `SE Vx, Vy` (R105); `ign` is w[3:0], any value of which decodes here and nothing reads (R79). -/
  | seReg (x y : Reg) (ign : Nibble)
  /-- `LD Vx, byte` (R111) -/
  | ldByte (x : Reg) (kk : Byte)
  /-- `ADD Vx, byte` (R112) -/
  | addByte (x : Reg) (kk : Byte)
  /-- `LD Vx, Vy` (R113) -/
  | ldReg (x y : Reg)
  /-- `OR Vx, Vy` (R114) -/
  | orReg (x y : Reg)
  /-- `AND Vx, Vy` (R115) -/
  | andReg (x y : Reg)
  /-- `XOR Vx, Vy` (R116) -/
  | xorReg (x y : Reg)
  /-- `ADD Vx, Vy` (R117) -/
  | addReg (x y : Reg)
  /-- `SUB Vx, Vy` (R118) -/
  | subReg (x y : Reg)
  /-- `SHR Vx {, Vy}` (R119); y is decoded and unused (R87). -/
  | shr (x y : Reg)
  /-- `SUBN Vx, Vy` (R120) -/
  | subnReg (x y : Reg)
  /-- `SHL Vx {, Vy}` (R121); y is decoded and unused (R87). -/
  | shl (x y : Reg)
  /-- `SNE Vx, Vy` (R106); `ign` as in `seReg`. -/
  | sneReg (x y : Reg) (ign : Nibble)
  /-- `LD I, addr` (R130) -/
  | ldI (nnn : Addr)
  /-- `JP V0, addr` (R107) -/
  | jpV0 (nnn : Addr)
  /-- `RND Vx, byte` (R122) -/
  | rnd (x : Reg) (kk : Byte)
  /-- `DRW Vx, Vy, nibble` (R146) -/
  | drw (x y : Reg) (n : Nibble)
  /-- `SKP Vx` (R151) -/
  | skp (x : Reg)
  /-- `SKNP Vx` (R152) -/
  | sknp (x : Reg)
  /-- `LD Vx, DT` (R140) -/
  | ldVxDt (x : Reg)
  /-- `LD Vx, K` (R153) -/
  | ldVxK (x : Reg)
  /-- `LD DT, Vx` (R141) -/
  | ldDtVx (x : Reg)
  /-- `LD ST, Vx` (R142) -/
  | ldStVx (x : Reg)
  /-- `ADD I, Vx` (R131) -/
  | addI (x : Reg)
  /-- `LD F, Vx` (R132) -/
  | ldF (x : Reg)
  /-- `LD B, Vx` (R133) -/
  | ldB (x : Reg)
  /-- `LD [I], Vx` (R134) -/
  | ldMemVx (x : Reg)
  /-- `LD Vx, [I]` (R135) -/
  | ldVxMem (x : Reg)
  deriving DecidableEq, Repr

end Sys2Proof
end

