-- ==== Sys2Proof/WellFormed.lean ====
section
/-! DEFINITION. Well-formedness of an instruction: every operand's value fits the field of the word
that holds it (30_encoding.md R71, R73). The fields of `Instr` have exactly those widths, so every
instruction is well formed (`Laws.RoundTrip.wellFormed_all`); the check itself is on numbers, as an
assembler would make it, and refuses a value that is too large. -/

namespace Sys2Proof

/-- The fields of an instruction word (R71). -/
inductive Field where
  | x | y | n | kk | nnn
  deriving DecidableEq, Repr

/-- The field's bits, high then low (R71). -/
def Field.bits : Field → Nat × Nat
  | .x => (11, 8)
  | .y => (7, 4)
  | .n => (3, 0)
  | .kk => (7, 0)
  | .nnn => (11, 0)

/-- The field's width in bits. -/
def Field.width (f : Field) : Nat := f.bits.1 + 1 - f.bits.2

/-- A number written into a field. -/
structure Operand where
  field : Field
  value : Nat
  deriving DecidableEq, Repr

/-- The number fits the field. -/
def Operand.fits (o : Operand) : Bool := o.value < 2 ^ o.field.width

/-- The operands of an instruction, each with the field that holds it (R73). -/
def Instr.operands : Instr → List Operand
  | .cls | .ret => []
  | .jp nnn | .call nnn | .ldI nnn | .jpV0 nnn => [⟨.nnn, nnn.toNat⟩]
  | .seByte x kk | .sneByte x kk | .ldByte x kk | .addByte x kk | .rnd x kk => [⟨.x, x.val⟩, ⟨.kk, kk.toNat⟩]
  | .seReg x y ign | .sneReg x y ign => [⟨.x, x.val⟩, ⟨.y, y.val⟩, ⟨.n, ign.toNat⟩]
  | .ldReg x y | .orReg x y | .andReg x y | .xorReg x y | .addReg x y | .subReg x y | .shr x y
  | .subnReg x y | .shl x y => [⟨.x, x.val⟩, ⟨.y, y.val⟩]
  | .drw x y n => [⟨.x, x.val⟩, ⟨.y, y.val⟩, ⟨.n, n.toNat⟩]
  | .skp x | .sknp x | .ldVxDt x | .ldVxK x | .ldDtVx x | .ldStVx x | .addI x | .ldF x | .ldB x
  | .ldMemVx x | .ldVxMem x => [⟨.x, x.val⟩]

/-- Every operand fits its field. -/
def Instr.wellFormed (i : Instr) : Bool := i.operands.all Operand.fits

end Sys2Proof
end

