-- ==== Sys2Proof/Decode.lean ====
section
/-! DEFINITION. The fetch_decode_unit's decoder (30_encoding.md R70–R84), total on any bytes and
refusing by name, and the encoder written from the same formats (R73). -/

namespace Sys2Proof

/-! ### The fields of a word (R71) -/

/-- `op` = w[15:12] -/
def opOf (w : Word) : Nibble := w.extractLsb' 12 4

/-- `x` = w[11:8] -/
def xOf (w : Word) : Reg := (w.extractLsb' 8 4).toFin

/-- `y` = w[7:4] -/
def yOf (w : Word) : Reg := (w.extractLsb' 4 4).toFin

/-- `n` = w[3:0] -/
def nOf (w : Word) : Nibble := w.extractLsb' 0 4

/-- `kk` = w[7:0] -/
def kkOf (w : Word) : Byte := w.extractLsb' 0 8

/-- `nnn` = w[11:0] -/
def nnnOf (w : Word) : Addr := w.extractLsb' 0 12

/-! ### Decoding a word: two levels of dispatch (R74) -/

/-- Group 0x0 (R75). -/
def decodeGroup0 (w : Word) : Option Instr :=
  if w = 0x00E0#16 then some .cls
  else if w = 0x00EE#16 then some .ret
  else none

/-- Group 0x8 (R76), by the sub-opcode s = w[3:0]. -/
def decodeGroup8 (x y : Reg) (s : Nibble) : Option Instr :=
  if s = 0x0#4 then some (.ldReg x y)
  else if s = 0x1#4 then some (.orReg x y)
  else if s = 0x2#4 then some (.andReg x y)
  else if s = 0x3#4 then some (.xorReg x y)
  else if s = 0x4#4 then some (.addReg x y)
  else if s = 0x5#4 then some (.subReg x y)
  else if s = 0x6#4 then some (.shr x y)
  else if s = 0x7#4 then some (.subnReg x y)
  else if s = 0xE#4 then some (.shl x y)
  else none

/-- Group 0xE (R77), by the low byte. -/
def decodeGroupE (x : Reg) (kk : Byte) : Option Instr :=
  if kk = 0x9E#8 then some (.skp x)
  else if kk = 0xA1#8 then some (.sknp x)
  else none

/-- Group 0xF (R78), by the low byte. -/
def decodeGroupF (x : Reg) (kk : Byte) : Option Instr :=
  if kk = 0x07#8 then some (.ldVxDt x)
  else if kk = 0x0A#8 then some (.ldVxK x)
  else if kk = 0x15#8 then some (.ldDtVx x)
  else if kk = 0x18#8 then some (.ldStVx x)
  else if kk = 0x1E#8 then some (.addI x)
  else if kk = 0x29#8 then some (.ldF x)
  else if kk = 0x33#8 then some (.ldB x)
  else if kk = 0x55#8 then some (.ldMemVx x)
  else if kk = 0x65#8 then some (.ldVxMem x)
  else none

/-- The kind a word decodes to, by its top nibble (R74, R79); `none` is UNKNOWN (R82). It reads no
state (R80). -/
def decodeWord (w : Word) : Option Instr :=
  let x := xOf w
  let y := yOf w
  let n := nOf w
  let kk := kkOf w
  let nnn := nnnOf w
  let op := opOf w
  if op = 0x0#4 then decodeGroup0 w
  else if op = 0x1#4 then some (.jp nnn)
  else if op = 0x2#4 then some (.call nnn)
  else if op = 0x3#4 then some (.seByte x kk)
  else if op = 0x4#4 then some (.sneByte x kk)
  else if op = 0x5#4 then some (.seReg x y n)
  else if op = 0x6#4 then some (.ldByte x kk)
  else if op = 0x7#4 then some (.addByte x kk)
  else if op = 0x8#4 then decodeGroup8 x y n
  else if op = 0x9#4 then some (.sneReg x y n)
  else if op = 0xA#4 then some (.ldI nnn)
  else if op = 0xB#4 then some (.jpV0 nnn)
  else if op = 0xC#4 then some (.rnd x kk)
  else if op = 0xD#4 then some (.drw x y n)
  else if op = 0xE#4 then decodeGroupE x kk
  else decodeGroupF x kk

/-! ### Decoding bytes -/

/-- Why the decoder gives no instruction. -/
inductive DecodeError where
  /-- fewer than two bytes are left: no whole word (R70) -/
  | truncated
  /-- the word is UNKNOWN (R82): it matches no row of the opcode table -/
  | unknown (w : Word)
  deriving DecidableEq, Repr

/-- The word of two bytes in memory order: the first is the high byte (20_memory.md R56; assumption
log 1). -/
def wordOfBytes (first second : Byte) : Word := BitVec.ofNat 16 (first.toNat * 256 + second.toNat)

/-- The two bytes of a word in memory order (20_memory.md R56). -/
def bytesOfWord (w : Word) : List Byte := [w.extractLsb' 8 8, w.extractLsb' 0 8]

/-- The instruction at the head of a list of bytes, and the bytes after it. -/
def decode : List Byte → Except DecodeError (Instr × List Byte)
  | hi :: lo :: rest =>
    match decodeWord (wordOfBytes hi lo) with
    | some i => .ok (i, rest)
    | none => .error (.unknown (wordOfBytes hi lo))
  | _ => .error .truncated

/-! ### Encoding (R73) -/

/-- Format `ADDR`: `oooonnnnnnnnnnnn` -/
def wordADDR (op : Nibble) (nnn : Addr) : Word := BitVec.ofNat 16 (op.toNat * 4096 + nnn.toNat)

/-- Format `XKK`: `ooooxxxxkkkkkkkk`; format `XS` is the same with the sub-opcode byte for kk. -/
def wordXKK (op : Nibble) (x : Reg) (kk : Byte) : Word :=
  BitVec.ofNat 16 (op.toNat * 4096 + x.val * 256 + kk.toNat)

/-- Formats `XY`, `XYS` and `XYN`: `ooooxxxxyyyynnnn`, with the ignored bits, the sub-opcode or the
height in the last nibble. -/
def wordXYN (op : Nibble) (x y : Reg) (n : Nibble) : Word :=
  BitVec.ofNat 16 (op.toNat * 4096 + x.val * 256 + y.val * 16 + n.toNat)

/-- The word of an instruction (R73, R75–R79). -/
def encodeWord : Instr → Word
  | .cls => 0x00E0#16
  | .ret => 0x00EE#16
  | .jp nnn => wordADDR 0x1#4 nnn
  | .call nnn => wordADDR 0x2#4 nnn
  | .seByte x kk => wordXKK 0x3#4 x kk
  | .sneByte x kk => wordXKK 0x4#4 x kk
  | .seReg x y ign => wordXYN 0x5#4 x y ign
  | .ldByte x kk => wordXKK 0x6#4 x kk
  | .addByte x kk => wordXKK 0x7#4 x kk
  | .ldReg x y => wordXYN 0x8#4 x y 0x0#4
  | .orReg x y => wordXYN 0x8#4 x y 0x1#4
  | .andReg x y => wordXYN 0x8#4 x y 0x2#4
  | .xorReg x y => wordXYN 0x8#4 x y 0x3#4
  | .addReg x y => wordXYN 0x8#4 x y 0x4#4
  | .subReg x y => wordXYN 0x8#4 x y 0x5#4
  | .shr x y => wordXYN 0x8#4 x y 0x6#4
  | .subnReg x y => wordXYN 0x8#4 x y 0x7#4
  | .shl x y => wordXYN 0x8#4 x y 0xE#4
  | .sneReg x y ign => wordXYN 0x9#4 x y ign
  | .ldI nnn => wordADDR 0xA#4 nnn
  | .jpV0 nnn => wordADDR 0xB#4 nnn
  | .rnd x kk => wordXKK 0xC#4 x kk
  | .drw x y n => wordXYN 0xD#4 x y n
  | .skp x => wordXKK 0xE#4 x 0x9E#8
  | .sknp x => wordXKK 0xE#4 x 0xA1#8
  | .ldVxDt x => wordXKK 0xF#4 x 0x07#8
  | .ldVxK x => wordXKK 0xF#4 x 0x0A#8
  | .ldDtVx x => wordXKK 0xF#4 x 0x15#8
  | .ldStVx x => wordXKK 0xF#4 x 0x18#8
  | .addI x => wordXKK 0xF#4 x 0x1E#8
  | .ldF x => wordXKK 0xF#4 x 0x29#8
  | .ldB x => wordXKK 0xF#4 x 0x33#8
  | .ldMemVx x => wordXKK 0xF#4 x 0x55#8
  | .ldVxMem x => wordXKK 0xF#4 x 0x65#8

/-- The bytes of an instruction in memory order. -/
def encode (i : Instr) : List Byte := bytesOfWord (encodeWord i)

/-! ### The opcode table (spec/opcode_table.json) -/

/-- A row's fixed bits: a word is of the row exactly when `w &&& mask = bits`. -/
structure OpcodeRow where
  mnemonic : String
  mask : Word
  bits : Word
  deriving DecidableEq, Repr

/-- The word has the row's fixed bits. -/
def OpcodeRow.covers (r : OpcodeRow) (w : Word) : Bool := w &&& r.mask == r.bits

/-- The 34 rows of spec/opcode_table.json, in its order: groups 0x0–0x7. -/
def opcodeRowsLow : List OpcodeRow :=
  [⟨"CLS", 0xFFFF, 0x00E0⟩, ⟨"RET", 0xFFFF, 0x00EE⟩, ⟨"JP_addr", 0xF000, 0x1000⟩,
   ⟨"CALL_addr", 0xF000, 0x2000⟩, ⟨"SE_Vx__byte", 0xF000, 0x3000⟩, ⟨"SNE_Vx__byte", 0xF000, 0x4000⟩,
   ⟨"SE_Vx__Vy", 0xF000, 0x5000⟩, ⟨"LD_Vx__byte", 0xF000, 0x6000⟩, ⟨"ADD_Vx__byte", 0xF000, 0x7000⟩]

/-- Group 0x8. -/
def opcodeRowsAlu : List OpcodeRow :=
  [⟨"LD_Vx__Vy", 0xF00F, 0x8000⟩, ⟨"OR_Vx__Vy", 0xF00F, 0x8001⟩, ⟨"AND_Vx__Vy", 0xF00F, 0x8002⟩,
   ⟨"XOR_Vx__Vy", 0xF00F, 0x8003⟩, ⟨"ADD_Vx__Vy", 0xF00F, 0x8004⟩, ⟨"SUB_Vx__Vy", 0xF00F, 0x8005⟩,
   ⟨"SHR_Vx____Vy", 0xF00F, 0x8006⟩, ⟨"SUBN_Vx__Vy", 0xF00F, 0x8007⟩, ⟨"SHL_Vx____Vy", 0xF00F, 0x800E⟩]

/-- Groups 0x9–0xF. -/
def opcodeRowsHigh : List OpcodeRow :=
  [⟨"SNE_Vx__Vy", 0xF000, 0x9000⟩, ⟨"LD_I__addr", 0xF000, 0xA000⟩, ⟨"JP_V0__addr", 0xF000, 0xB000⟩,
   ⟨"RND_Vx__byte", 0xF000, 0xC000⟩, ⟨"DRW_Vx__Vy__nibble", 0xF000, 0xD000⟩,
   ⟨"SKP_Vx", 0xF0FF, 0xE09E⟩, ⟨"SKNP_Vx", 0xF0FF, 0xE0A1⟩, ⟨"LD_Vx__DT", 0xF0FF, 0xF007⟩,
   ⟨"LD_Vx__K", 0xF0FF, 0xF00A⟩, ⟨"LD_DT__Vx", 0xF0FF, 0xF015⟩, ⟨"LD_ST__Vx", 0xF0FF, 0xF018⟩,
   ⟨"ADD_I__Vx", 0xF0FF, 0xF01E⟩, ⟨"LD_F__Vx", 0xF0FF, 0xF029⟩, ⟨"LD_B__Vx", 0xF0FF, 0xF033⟩,
   ⟨"LD__I___Vx", 0xF0FF, 0xF055⟩, ⟨"LD_Vx___I", 0xF0FF, 0xF065⟩]

/-- The whole table. -/
def opcodeTable : List OpcodeRow := opcodeRowsLow ++ opcodeRowsAlu ++ opcodeRowsHigh

/-- The row of the opcode table that an instruction is of, by its mnemonic there. -/
def Instr.mnemonic : Instr → String
  | .cls => "CLS"
  | .ret => "RET"
  | .jp _ => "JP_addr"
  | .call _ => "CALL_addr"
  | .seByte .. => "SE_Vx__byte"
  | .sneByte .. => "SNE_Vx__byte"
  | .seReg .. => "SE_Vx__Vy"
  | .ldByte .. => "LD_Vx__byte"
  | .addByte .. => "ADD_Vx__byte"
  | .ldReg .. => "LD_Vx__Vy"
  | .orReg .. => "OR_Vx__Vy"
  | .andReg .. => "AND_Vx__Vy"
  | .xorReg .. => "XOR_Vx__Vy"
  | .addReg .. => "ADD_Vx__Vy"
  | .subReg .. => "SUB_Vx__Vy"
  | .shr .. => "SHR_Vx____Vy"
  | .subnReg .. => "SUBN_Vx__Vy"
  | .shl .. => "SHL_Vx____Vy"
  | .sneReg .. => "SNE_Vx__Vy"
  | .ldI _ => "LD_I__addr"
  | .jpV0 _ => "JP_V0__addr"
  | .rnd .. => "RND_Vx__byte"
  | .drw .. => "DRW_Vx__Vy__nibble"
  | .skp _ => "SKP_Vx"
  | .sknp _ => "SKNP_Vx"
  | .ldVxDt _ => "LD_Vx__DT"
  | .ldVxK _ => "LD_Vx__K"
  | .ldDtVx _ => "LD_DT__Vx"
  | .ldStVx _ => "LD_ST__Vx"
  | .addI _ => "ADD_I__Vx"
  | .ldF _ => "LD_F__Vx"
  | .ldB _ => "LD_B__Vx"
  | .ldMemVx _ => "LD__I___Vx"
  | .ldVxMem _ => "LD_Vx___I"

/-! ### The host's view of the decoder -/

/-- The word whose bits the table numbers in `w`: the low `nbits` bits, the others 0. -/
def tableWord (nbits w : Nat) : Word := BitVec.ofNat 16 (w % 2 ^ nbits)

/-- The instruction the decoder reads from the bytes of the word whose bits are `w`. -/
def decodeTableWord (nbits w : Nat) : Option Instr :=
  match decode (bytesOfWord (tableWord nbits w)) with
  | .ok (i, _) => some i
  | .error _ => none

end Sys2Proof
end

