-- ==== Sys2Proof/Config.lean ====
section
/-! DEFINITION. The named parameters of 00_scope.md R4–R12 at the values the spec gives, and the two
free values of a tick (10_state.md R37). The font table, the one parameter with bytes that the source
does not give, stands in Machine/Font.lean. -/

namespace Sys2Proof.Config

/-- R4. -/
abbrev memSize : Nat := 4096

/-- R5: the load offset and the entry point. -/
abbrev progBase : Nat := 0x200

/-- R5: `memSize - progBase`. -/
abbrev maxProgLen : Nat := 3584

/-- R6. -/
abbrev numV : Nat := 16

/-- R7. -/
abbrev stackDepth : Nat := 16

/-- R8. -/
abbrev dispW : Nat := 64

/-- R8. -/
abbrev dispH : Nat := 32

/-- R8. -/
abbrev dispPixels : Nat := 2048

/-- R8: eight pixels in a byte. -/
abbrev dispBytes : Nat := 256

/-- R9. -/
abbrev fontBase : Nat := 0

/-- R9. -/
abbrev fontGlyphBytes : Nat := 5

/-- R9: sixteen glyphs of five bytes. -/
abbrev fontBytes : Nat := 80

/-- R11: TICK_SLICE is 1/500 s. -/
abbrev ticksPerSecond : Nat := 500

/-- R11: TIMER_PERIOD is 1/60 s. -/
abbrev timerHz : Nat := 60

/-- R11: the smallest k ≥ 1 with k · TICK_SLICE ≥ TIMER_PERIOD (`Laws.timerDivide_least`). -/
abbrev timerDivide : Nat := 9

/-- The key mask of tick number `k` where the state lists none: any value (10_state.md R37, D21;
assumption log 4). -/
opaque freeKeys : Nat → BitVec 16

/-- The random byte of tick number `k` where the state lists none: any value, under no law
(10_state.md R37, D21; assumption log 4). -/
opaque freeRand : Nat → BitVec 8

end Sys2Proof.Config
end

