-- ==== Sys2Proof/Machine/State.lean ====
section
/-! DEFINITION. The state of the machine (10_state.md R20–R36), the reasons a tick or a host
transaction stops, and the state after power-on (R42, 70_reset_and_hazards.md R190). -/

namespace Sys2Proof.Machine

/-- The fault codes 1–5 that FAULT holds (60_exceptions.md R161). A fault is an effect the spec
describes: the tick that raises one answers a NEXT state with the code in FAULT (R160, assumption log
7), so no step answers `Host.Outcome.fault`. Each is safe: the machine stops as the spec says. -/
inductive Fault where
  /-- 1, raised by CALL when SP = 16 (R162). Safe. -/
  | stackOverflow
  /-- 2, raised by RET when SP = 0 (R163). Safe. -/
  | stackUnderflow
  /-- 3, raised by DRW, LD B,Vx, LD [I],Vx and LD Vx,[I] at an address of 4096 or more (R164). Safe. -/
  | memoryOutOfRange
  /-- 4, raised by the fetch when PC + 1 is 4096 or more (R165). Safe. -/
  | fetchOutOfRange
  /-- 5, raised by SKP and SKNP when V[x] > 15 (R166). Safe. -/
  | keyIndexOutOfRange
  deriving DecidableEq, Repr

/-- What has no meaning. Each is safe: nothing is answered. -/
inductive Refusal where
  /-- An instruction without a meaning, by its mnemonic. No arm of this model raises it. -/
  | notModelled (mnemonic : String)
  /-- A host transaction before the first `init`, raised by load, reset, tick and pixel (R195). -/
  | notInitialised
  /-- A `load` that is not the first after `init`, or that comes after a tick (R191, U15). -/
  | loadOutsideContract
  /-- A `reset` while FAULT ≠ 0 (R194, U14). -/
  | resetWhileFaulted
  /-- A pixel query with an index outside 0..2047 (R148, U17). -/
  | pixelIndexOutOfRange
  deriving DecidableEq, Repr

/-- What a step answers. -/
abbrev Result (σ : Type) := Host.Outcome σ Fault Refusal

/-- The memory, as the cells that differ from the contents after power-on, addresses strictly rising
(R30; the form is `Memory.wf`, what an unlisted address reads as is `Memory.background`). -/
abbrev Memory := List Host.Cell

/-- The framebuffer DISP[0..255] (R31). -/
abbrev Display := Vector Byte Config.dispBytes

/-- The two inputs of one tick (R37). -/
structure TickInput where
  /-- KEYS, the key mask (45_input.md R150) -/
  keys : BitVec 16
  /-- RAND, the random byte (41_load_arith.md R122) -/
  rand : BitVec 8
  deriving DecidableEq, Repr

structure State where
  /-- V0..VF (R20, R21) -/
  v : Vector Byte Config.numV
  /-- the index register I (R22) -/
  i : Word
  /-- the program counter (R23) -/
  pc : Word
  /-- the stack pointer, 0..16 (R24) -/
  sp : Fin (Config.stackDepth + 1)
  /-- the call stack, stale entries at SP and above (R25) -/
  stack : Vector Word Config.stackDepth
  /-- the delay timer (R26) -/
  dt : Byte
  /-- the sound timer, an output (R27) -/
  st : Byte
  /-- the timer phase, 0..8 (R28) -/
  acc : Fin Config.timerDivide
  /-- memory (R30) -/
  mem : Memory
  /-- the framebuffer (R31) -/
  disp : Display
  /-- the program length, 0..3584 (R29) -/
  plen : Fin (Config.maxProgLen + 1)
  /-- the fault register, `none` for code 0 (R32) -/
  fault : Option Fault
  /-- the model's own: the inputs already chosen for the coming ticks, oldest first (assumption log 4) -/
  inputs : List TickInput
  /-- the model's own: the number of ticks issued, which indexes the free values (assumption log 4) -/
  tickNo : Nat
  deriving DecidableEq, Repr

/-- The machine after `init`, the power-on transaction (R42, R190): everything zero, the font at its
place in memory, PC at 0x200. -/
def State.reset : State where
  v := Vector.replicate Config.numV 0#8
  i := 0#16
  pc := 0x200#16
  sp := 0
  stack := Vector.replicate Config.stackDepth 0#16
  dt := 0#8
  st := 0#8
  acc := 0
  mem := []
  disp := Vector.replicate Config.dispBytes 0#8
  plen := 0
  fault := none
  inputs := []
  tickNo := 0

end Sys2Proof.Machine
end

