-- ==== Sys2Proof/Machine/Font.lean ====
section
/-! DEFINITION. The parameter FONT (00_scope.md R9, R10): the 80 bytes that power-on writes to
addresses 0..79. Glyphs 0 and 1 are the source's; glyphs 2–F are the spec's default from general
knowledge (R10, D22; assumption log 3). No statement of this package rests on glyphs 2–F. -/

namespace Sys2Proof.Machine

/-- Glyphs 0 and 1, the two the source gives (R10). -/
def fontGiven : List Byte :=
  [0xF0, 0x90, 0x90, 0x90, 0xF0] ++ [0x20, 0x60, 0x20, 0x20, 0x70]

/-- Glyphs 2–8 by default (R10, PRESUMED). -/
def fontDefaultLow : List Byte :=
  [0xF0, 0x10, 0xF0, 0x80, 0xF0] ++ [0xF0, 0x10, 0xF0, 0x10, 0xF0] ++ [0x90, 0x90, 0xF0, 0x10, 0x10] ++
  [0xF0, 0x80, 0xF0, 0x10, 0xF0] ++ [0xF0, 0x80, 0xF0, 0x90, 0xF0] ++ [0xF0, 0x10, 0x20, 0x40, 0x40] ++
  [0xF0, 0x90, 0xF0, 0x90, 0xF0]

/-- Glyphs 9–F by default (R10, PRESUMED). -/
def fontDefaultHigh : List Byte :=
  [0xF0, 0x90, 0xF0, 0x10, 0xF0] ++ [0xF0, 0x90, 0xF0, 0x90, 0x90] ++ [0xE0, 0x90, 0xE0, 0x90, 0xE0] ++
  [0xF0, 0x80, 0x80, 0x80, 0xF0] ++ [0xE0, 0x90, 0x90, 0x90, 0xE0] ++ [0xF0, 0x80, 0xF0, 0x80, 0xF0] ++
  [0xF0, 0x80, 0xF0, 0x80, 0x80]

/-- FONT (R10). -/
def font : List Byte := fontGiven ++ fontDefaultLow ++ fontDefaultHigh

/-- What an address of memory that lists no cell reads as: the contents after power-on (R42): FONT at
0..79, 0 elsewhere. -/
def Memory.background (a : Nat) : Byte :=
  if Config.fontBase ≤ a ∧ a < Config.fontBase + Config.fontBytes then
    (font[a - Config.fontBase]?).getD 0#8
  else 0#8

end Sys2Proof.Machine
end

