-- ==== Sys2Proof/Machine/Ops.lean ====
section
/-! DEFINITION. The named operations over registers, memory, stack, timers, framebuffer and fault
register that the meanings share. Every change of State goes through one of the updates below. -/

namespace Sys2Proof.Machine

/-! ### Registers (10_state.md R20–R24) -/

/-- V[x] (R15). -/
def State.reg (s : State) (x : Reg) : Byte := s.v[x.val]'x.isLt

/-- V[x] <- b (R15). -/
def State.setReg (s : State) (x : Reg) (b : Byte) : State := { s with v := s.v.set x.val b x.isLt }

/-- All of V at once (block load). -/
def State.setRegs (s : State) (v : Vector Byte Config.numV) : State := { s with v := v }

/-- I <- w (R22). -/
def State.setIndex (s : State) (w : Word) : State := { s with i := w }

/-- pc <- target (R15). -/
def State.jump (s : State) (target : Word) : State := { s with pc := target }

/-- PC <- PC + n, the advance of R39. PC never wraps in a reachable state (R40). -/
def State.advance (s : State) (n : Word) : State := s.jump (s.pc + n)

/-- Advance 4 when the condition holds and 2 otherwise (R39). -/
def State.skipWhen (s : State) (c : Bool) : State := s.advance (if c then 4#16 else 2#16)

/-- DT <- b (R26). -/
def State.setDt (s : State) (b : Byte) : State := { s with dt := b }

/-- ST <- b (R27). -/
def State.setSt (s : State) (b : Byte) : State := { s with st := b }

/-- A new memory. -/
def State.setMem (s : State) (m : Memory) : State := { s with mem := m }

/-- A new framebuffer. -/
def State.setDisp (s : State) (d : Display) : State := { s with disp := d }

/-- A new stack pointer and stack. -/
def State.setStack (s : State) (sp : Fin (Config.stackDepth + 1)) (stack : Vector Word Config.stackDepth) :
    State := { s with sp := sp, stack := stack }

/-- New timers and a new phase. -/
def State.setTimers (s : State) (acc : Fin Config.timerDivide) (dt st : Byte) : State :=
  { s with acc := acc, dt := dt, st := st }

/-! ### Taking a fault (60_exceptions.md R160–R168)

There is no handler and no return from a fault (R170): only the `init` transaction clears FAULT, so no
operation stands beside this one. -/

/-- `raise Fault(code)`: FAULT <- code and nothing else (R160, R168). -/
def State.raise (s : State) (f : Fault) : State := { s with fault := some f }

/-- The execute step's answer: the instruction's own next state, or, where it raised a fault, the state
at the start of the tick with the fault taken (10_state.md R38). -/
def settle (s : State) : Except Fault State → Result State
  | .ok t => .next t
  | .error f => .next (s.raise f)

/-- The number of a fault (R161). -/
def Fault.code : Fault → BitVec 3
  | .stackOverflow => 1#3
  | .stackUnderflow => 2#3
  | .memoryOutOfRange => 3#3
  | .fetchOutOfRange => 4#3
  | .keyIndexOutOfRange => 5#3

/-- The 3-bit FAULT output (10_state.md R32, R37). -/
def State.faultCode (s : State) : BitVec 3 :=
  match s.fault with
  | none => 0#3
  | some f => f.code

/-! ### Memory (20_memory.md R50–R61) -/

/-- The byte at an address: the listed cell, or the power-on contents. -/
def Memory.read : Memory → Nat → Byte
  | [], a => Memory.background a
  | (b, v) :: rest, a => if a = b then v else Memory.read rest a

/-- The list with the cell (a, v) at its place in the order, or in place of the cell at a. -/
def Memory.insert : Memory → Nat → Byte → Memory
  | [], a, v => [(a, v)]
  | (b, w) :: rest, a, v =>
    if a < b then (a, v) :: (b, w) :: rest
    else if a = b then (a, v) :: rest
    else (b, w) :: Memory.insert rest a v

/-- MEM[a] <- v, keeping the canonical form: writing the power-on contents removes the cell. -/
def Memory.write (m : Memory) (a : Nat) (v : Byte) : Memory :=
  if v = Memory.background a then m.filter (fun c => decide (c.1 ≠ a)) else m.insert a v

/-- The canonical form: addresses below 4096 and strictly rising, no cell equal to the power-on
contents. -/
def Memory.wf : Memory → Bool
  | [] => true
  | (a, v) :: rest =>
    decide (a < Config.memSize) && decide (v ≠ Memory.background a) &&
      rest.all (fun c => decide (a < c.1)) && Memory.wf rest

/-- The bytes at a, a+1, … a+n-1. -/
def Memory.readSpan (m : Memory) (a n : Nat) : List Byte := (List.range n).map fun k => m.read (a + k)

/-- MEM[a], MEM[a+1], … <- the bytes, in address order. -/
def Memory.writeSpan : Memory → Nat → List Byte → Memory
  | m, _, [] => m
  | m, a, b :: bs => Memory.writeSpan (m.write a b) (a + 1) bs

/-- The check that comes before any change (R55): every address of the span is below 4096. A span of
no bytes touches no address (44_display.md R146). -/
def spanInMemory (a n : Nat) : Bool := decide (n = 0) || decide (a + n ≤ Config.memSize)

/-- `MemRead` of the n bytes at the exact address a (R53, R55); MemRead(a, 1) is n = 1. -/
def memRead (m : Memory) (a n : Nat) : Except Fault (List Byte) :=
  if spanInMemory a n then .ok (m.readSpan a n) else .error .memoryOutOfRange

/-- `MemWrite` of the bytes at the exact address a (R54, R55); MemWrite(a, 1, v) is one byte. -/
def memWrite (m : Memory) (a : Nat) (bytes : List Byte) : Except Fault Memory :=
  if spanInMemory a bytes.length then .ok (m.writeSpan a bytes) else .error .memoryOutOfRange

/-! ### The call stack (10_state.md R25) -/

/-- `push(v)`. -/
def State.push (s : State) (v : Word) : Except Fault State :=
  if h : s.sp.val < Config.stackDepth then
    .ok (s.setStack ⟨s.sp.val + 1, Nat.succ_lt_succ h⟩ (s.stack.set s.sp.val v h))
  else .error .stackOverflow

/-- `pop()`: the entry below SP, which keeps its stored value (D6), and the state after it. -/
def State.pop (s : State) : Except Fault (Word × State) :=
  if s.sp.val = 0 then .error .stackUnderflow
  else
    .ok (s.stack[s.sp.val - 1]'(by have := s.sp.isLt; simp only [Config.stackDepth] at *; omega),
      s.setStack ⟨s.sp.val - 1, by have := s.sp.isLt; omega⟩ s.stack)

/-! ### The timers (60_exceptions.md R173, R174) -/

/-- Down by at most 1, never below 0 (R174). -/
def countDown (b : Byte) : Byte := if b = 0#8 then 0#8 else b - 1#8

/-- The timer step (R173): every ninth executed tick both timers count down. -/
def State.timerStep (s : State) : State :=
  if h : s.acc.val + 1 < Config.timerDivide then s.setTimers ⟨s.acc.val + 1, h⟩ s.dt s.st
  else s.setTimers ⟨0, by decide⟩ (countDown s.dt) (countDown s.st)

/-! ### The inputs of a tick (10_state.md R37; assumption log 4) -/

/-- KEYS of this tick. -/
def State.keys (s : State) : BitVec 16 :=
  match s.inputs with
  | [] => Config.freeKeys s.tickNo
  | input :: _ => input.keys

/-- RAND of this tick. -/
def State.rand (s : State) : BitVec 8 :=
  match s.inputs with
  | [] => Config.freeRand s.tickNo
  | input :: _ => input.rand

/-- The next tick has inputs of its own. -/
def State.nextInput (s : State) : State := { s with inputs := s.inputs.tail, tickNo := s.tickNo + 1 }

/-! ### The framebuffer (10_state.md R31) -/

/-- The linear index of the pixel at column px and row py, both wrapped (R31, 44_display.md R146). -/
def pixelIndex (px py : Nat) : Nat := (py % Config.dispH) * Config.dispW + px % Config.dispW

/-- `DISP_BIT(p)` = DISP[p / 8][7 - (p % 8)] (R31). -/
def dispBit (d : Display) (p : Nat) : Bool := ((d[p / 8]?).getD 0#8).getLsbD (7 - p % 8)

/-- DISP_BIT(p) <- DISP_BIT(p) ^ 1. -/
def flipBit (d : Display) (p : Nat) : Display :=
  d.setIfInBounds (p / 8) (((d[p / 8]?).getD 0#8) ^^^ (1#8 <<< (7 - p % 8)))

/-- A framebuffer being drawn on, and whether a lit pixel has gone dark. -/
structure Canvas where
  disp : Display
  collided : Bool
  deriving DecidableEq, Repr

/-- One 1 bit of the sprite on pixel p (R146). -/
def drawPixel (p : Nat) (c : Canvas) : Canvas where
  disp := flipBit c.disp p
  collided := c.collided || dispBit c.disp p

/-- One row of the sprite: bit 7 is the leftmost column (R146). -/
def drawRow (b : Byte) (x0 y : Nat) (c : Canvas) : Canvas :=
  (List.range 8).foldl
    (fun c col => if b.getLsbD (7 - col) then drawPixel (pixelIndex (x0 + col) y) c else c) c

/-- The rows of the sprite from row y downward (R146). -/
def drawSprite : List Byte → Nat → Nat → Canvas → Canvas
  | [], _, _, c => c
  | b :: bs, x0, y, c => drawSprite bs x0 (y + 1) (drawRow b x0 y c)

end Sys2Proof.Machine
end

