-- ==== Sys2Proof/Machine/Operands.lean ====
section
/-! DEFINITION. What an instruction's operand fields stand for (30_encoding.md R72). A register field is
read with `State.reg`; the byte kk and the count n are used as they are. -/

namespace Sys2Proof.Machine

/-- `zext_16(nnn)`: an address where it becomes a PC or an I value (R72). -/
def addrOperand (nnn : Addr) : Word := nnn.setWidth 16

/-- The target of JP V0: `zext_16(nnn) + zext_16(V[0])` (40_control_flow.md R107). -/
def offsetTarget (nnn : Addr) (v0 : Byte) : Word := addrOperand nnn + v0.setWidth 16

/-- `(I + V[x]) mod 65536` (42_index_memory.md R131). -/
def indexSum (i : Word) (b : Byte) : Word := i + b.setWidth 16

/-- `FONT_BASE + (V[x] & 0xF) * FONT_GLYPH_BYTES` (42_index_memory.md R132). -/
def fontAddress (b : Byte) : Word :=
  BitVec.ofNat 16 (Config.fontBase + (b &&& 0x0F#8).toNat * Config.fontGlyphBytes)

/-- The base of a data access: I as an exact number (20_memory.md R53). -/
def State.indexAddress (s : State) : Nat := s.i.toNat

/-- How many bytes a block instruction moves: V0..Vx inclusive (42_index_memory.md R134, R135). -/
def blockLength (x : Reg) : Nat := x.val + 1

/-- V[0], V[1], … V[x] (42_index_memory.md R134). -/
def State.firstRegs (s : State) (x : Reg) : List Byte := s.v.toList.take (blockLength x)

/-- V[0], V[1], … <- the bytes; the registers past them keep their values (42_index_memory.md R135). -/
def State.loadFirstRegs (s : State) (bytes : List Byte) : State :=
  s.setRegs (Vector.ofFn fun r : Fin Config.numV => (bytes[r.val]?).getD (s.reg r))

/-- Hundreds, tens and units (42_index_memory.md R133). -/
def bcdDigits (b : Byte) : List Byte := [b / 100#8, (b / 10#8) % 10#8, b % 10#8]

/-- Key k is down exactly when KEYS[15 - k] = 1 (45_input.md R150). -/
def keyDown (keys : BitVec 16) (k : Nat) : Bool := keys.getLsbD (15 - k)

/-- The key number in a register, or the fault where it is above 15 (45_input.md R151, R152). -/
def keyOperand (b : Byte) : Except Fault Nat :=
  if b.toNat > 0xF then .error .keyIndexOutOfRange else .ok b.toNat

/-- The lowest-numbered key that is down, scanning 0..15 (45_input.md R153). -/
def lowestKey (keys : BitVec 16) : Option Nat := (List.range 16).find? fun k => keyDown keys k

end Sys2Proof.Machine
end

