-- ==== Sys2Proof/Machine/Flags.lean ====
section
/-! DEFINITION. Every computation of the flag VF (10_state.md R21), and the order of its write
(41_load_arith.md R110). -/

namespace Sys2Proof.Machine

/-- The flag register VF. -/
abbrev flagReg : Reg := 15

/-- A flag as the byte VF holds. -/
def flagByte (b : Bool) : Byte := if b then 1#8 else 0#8

/-- ADD Vx,Vy: the sum exceeds 255 (R117). -/
def carryFlag (a b : Byte) : Byte := flagByte (decide (255 < a.toNat + b.toNat))

/-- SUB and SUBN: the first operand is strictly greater (R118, R120). -/
def greaterFlag (a b : Byte) : Byte := flagByte (decide (b.toNat < a.toNat))

/-- SHR: bit 0 (R119). -/
def lowBitFlag (a : Byte) : Byte := a &&& 1#8

/-- SHL: bit 7 (R121). -/
def highBitFlag (a : Byte) : Byte := a >>> 7

/-- V[x] is written, then VF: with x = F the flag wins (R110). -/
def State.setRegFlag (s : State) (x : Reg) (result flag : Byte) : State :=
  (s.setReg x result).setReg flagReg flag

end Sys2Proof.Machine
end

