-- ==== Sys2Proof/Machine/Arith.lean ====
section
/-! DEFINITION. Register loads, arithmetic, logic, shifts and random (41_load_arith.md R110–R122). All
operands are read from the state at the start (R110); a byte sum or difference is taken modulo 256
(00_scope.md R14). -/

namespace Sys2Proof.Machine

/-- `LD Vx, byte` (R111): V[x] <- kk. -/
def execLdByte (x : Reg) (kk : Byte) (s : State) : Result State := .next ((s.setReg x kk).advance 2#16)

/-- `ADD Vx, byte` (R112): V[x] <- (V[x] + kk) mod 256; VF is no flag here. -/
def execAddByte (x : Reg) (kk : Byte) (s : State) : Result State :=
  .next ((s.setReg x (s.reg x + kk)).advance 2#16)

/-- `LD Vx, Vy` (R113): V[x] <- V[y]. -/
def execLdReg (x y : Reg) (s : State) : Result State := .next ((s.setReg x (s.reg y)).advance 2#16)

/-- `OR Vx, Vy` (R114). -/
def execOrReg (x y : Reg) (s : State) : Result State :=
  .next ((s.setReg x (s.reg x ||| s.reg y)).advance 2#16)

/-- `AND Vx, Vy` (R115). -/
def execAndReg (x y : Reg) (s : State) : Result State :=
  .next ((s.setReg x (s.reg x &&& s.reg y)).advance 2#16)

/-- `XOR Vx, Vy` (R116). -/
def execXorReg (x y : Reg) (s : State) : Result State :=
  .next ((s.setReg x (s.reg x ^^^ s.reg y)).advance 2#16)

/-- `ADD Vx, Vy` (R117): VF = carry. -/
def execAddReg (x y : Reg) (s : State) : Result State :=
  .next ((s.setRegFlag x (s.reg x + s.reg y) (carryFlag (s.reg x) (s.reg y))).advance 2#16)

/-- `SUB Vx, Vy` (R118): V[x] - V[y]; VF = 1 exactly when V[x] > V[y]. -/
def execSubReg (x y : Reg) (s : State) : Result State :=
  .next ((s.setRegFlag x (s.reg x - s.reg y) (greaterFlag (s.reg x) (s.reg y))).advance 2#16)

/-- `SHR Vx {, Vy}` (R119): V[x] >> 1; VF = the bit shifted out; y is unused. -/
def execShr (x : Reg) (s : State) : Result State :=
  .next ((s.setRegFlag x (s.reg x >>> 1) (lowBitFlag (s.reg x))).advance 2#16)

/-- `SUBN Vx, Vy` (R120): V[y] - V[x]; VF = 1 exactly when V[y] > V[x]. -/
def execSubnReg (x y : Reg) (s : State) : Result State :=
  .next ((s.setRegFlag x (s.reg y - s.reg x) (greaterFlag (s.reg y) (s.reg x))).advance 2#16)

/-- `SHL Vx {, Vy}` (R121): (V[x] << 1) mod 256; VF = the old bit 7; y is unused. -/
def execShl (x : Reg) (s : State) : Result State :=
  .next ((s.setRegFlag x (s.reg x <<< 1) (highBitFlag (s.reg x))).advance 2#16)

/-- `RND Vx, byte` (R122): V[x] <- RAND & kk. -/
def execRnd (x : Reg) (kk : Byte) (s : State) : Result State :=
  .next ((s.setReg x (s.rand &&& kk)).advance 2#16)

end Sys2Proof.Machine
end

