-- ==== Sys2Proof/Machine/Control.lean ====
section
/-! DEFINITION. Control transfer, skips and the unknown kind (40_control_flow.md R100–R108). -/

namespace Sys2Proof.Machine

/-- `JP addr` (R100): pc <- zext_16(nnn). -/
def execJp (nnn : Addr) (s : State) : Result State := .next (s.jump (addrOperand nnn))

/-- `CALL addr` (R101): push(PC + 2), then pc <- zext_16(nnn); StackOverflow when SP = 16. -/
def execCall (nnn : Addr) (s : State) : Result State :=
  settle s ((s.push (s.pc + 2#16)).map fun t => t.jump (addrOperand nnn))

/-- `RET` (R102): pc <- pop(); StackUnderflow when SP = 0. -/
def execRet (s : State) : Result State := settle s (s.pop.map fun popped => popped.2.jump popped.1)

/-- `SE Vx, byte` (R103): skip when V[x] = kk. -/
def execSeByte (x : Reg) (kk : Byte) (s : State) : Result State := .next (s.skipWhen (s.reg x == kk))

/-- `SNE Vx, byte` (R104): skip when V[x] ≠ kk. -/
def execSneByte (x : Reg) (kk : Byte) (s : State) : Result State := .next (s.skipWhen (s.reg x != kk))

/-- `SE Vx, Vy` (R105): skip when V[x] = V[y]; w[3:0] is ignored. -/
def execSeReg (x y : Reg) (s : State) : Result State := .next (s.skipWhen (s.reg x == s.reg y))

/-- `SNE Vx, Vy` (R106): skip when V[x] ≠ V[y]; w[3:0] is ignored. -/
def execSneReg (x y : Reg) (s : State) : Result State := .next (s.skipWhen (s.reg x != s.reg y))

/-- `JP V0, addr` (R107): pc <- zext_16(nnn) + zext_16(V[0]). -/
def execJpV0 (nnn : Addr) (s : State) : Result State := .next (s.jump (offsetTarget nnn (s.reg 0)))

/-- `UNKNOWN` (R108): no state change, advance 0. Step runs it for every word the decoder gives no
instruction for. -/
def execUnknown (s : State) : Result State := .next s

end Sys2Proof.Machine
end

