-- ==== Sys2Proof/Machine/Display.lean ====
section
/-! DEFINITION. The framebuffer instructions (44_display.md R145–R147). -/

namespace Sys2Proof.Machine

/-- `CLS` (R145): every byte of DISP <- 0; VF is not written. -/
def execCls (s : State) : Result State :=
  .next ((s.setDisp (Vector.replicate Config.dispBytes 0#8)).advance 2#16)

/-- `DRW Vx, Vy, nibble` (R146): the n bytes at I are drawn by XOR at (V[x], V[y]), each pixel's
coordinates wrapped; VF, written once and last (R147), is 1 exactly when a lit pixel went dark;
MemoryOutOfRange with nothing drawn. -/
def execDrw (x y : Reg) (n : Nibble) (s : State) : Result State :=
  settle s ((memRead s.mem s.indexAddress n.toNat).map fun sprite =>
    let drawn := drawSprite sprite (s.reg x).toNat (s.reg y).toNat ⟨s.disp, false⟩
    ((s.setDisp drawn.disp).setReg flagReg (flagByte drawn.collided)).advance 2#16)

end Sys2Proof.Machine
end

