-- ==== Sys2Proof/Machine/Index.lean ====
section
/-! DEFINITION. The index register and the memory-block instructions (42_index_memory.md R130–R135).
None of the accesses changes I. -/

namespace Sys2Proof.Machine

/-- `LD I, addr` (R130): I <- zext_16(nnn). -/
def execLdI (nnn : Addr) (s : State) : Result State := .next ((s.setIndex (addrOperand nnn)).advance 2#16)

/-- `ADD I, Vx` (R131): I <- (I + V[x]) mod 65536, no flag. -/
def execAddI (x : Reg) (s : State) : Result State :=
  .next ((s.setIndex (indexSum s.i (s.reg x))).advance 2#16)

/-- `LD F, Vx` (R132): I <- the address of the glyph of V[x]'s low nibble. -/
def execLdF (x : Reg) (s : State) : Result State :=
  .next ((s.setIndex (fontAddress (s.reg x))).advance 2#16)

/-- `LD B, Vx` (R133): hundreds, tens, units at I, I+1, I+2; MemoryOutOfRange before any write. -/
def execLdB (x : Reg) (s : State) : Result State :=
  settle s ((memWrite s.mem s.indexAddress (bcdDigits (s.reg x))).map fun m => (s.setMem m).advance 2#16)

/-- `LD [I], Vx` (R134): V0..Vx to I..I+x; MemoryOutOfRange before any write. -/
def execLdMemVx (x : Reg) (s : State) : Result State :=
  settle s ((memWrite s.mem s.indexAddress (s.firstRegs x)).map fun m => (s.setMem m).advance 2#16)

/-- `LD Vx, [I]` (R135): I..I+x to V0..Vx; MemoryOutOfRange with no register changed. -/
def execLdVxMem (x : Reg) (s : State) : Result State :=
  settle s ((memRead s.mem s.indexAddress (blockLength x)).map fun bytes =>
    (s.loadFirstRegs bytes).advance 2#16)

end Sys2Proof.Machine
end

