-- ==== Sys2Proof/Machine/Input.lean ====
section
/-! DEFINITION. The key input instructions (45_input.md R150–R153). -/

namespace Sys2Proof.Machine

/-- `SKP Vx` (R151): skip when key V[x] is down; KeyIndexOutOfRange when V[x] > 15. -/
def execSkp (x : Reg) (s : State) : Result State :=
  settle s ((keyOperand (s.reg x)).map fun k => s.skipWhen (keyDown s.keys k))

/-- `SKNP Vx` (R152): skip when key V[x] is not down; KeyIndexOutOfRange when V[x] > 15. -/
def execSknp (x : Reg) (s : State) : Result State :=
  settle s ((keyOperand (s.reg x)).map fun k => s.skipWhen (!keyDown s.keys k))

/-- `LD Vx, K` (R153): while no key is down nothing changes and PC stays; else V[x] <- the
lowest-numbered key that is down. -/
def execLdVxK (x : Reg) (s : State) : Result State :=
  .next
    (match lowestKey s.keys with
    | none => s.advance 0#16
    | some k => (s.setReg x (BitVec.ofNat 8 k)).advance 2#16)

end Sys2Proof.Machine
end

