-- ==== Sys2Proof/Machine/Timers.lean ====
section
/-! DEFINITION. The timer instructions (43_timers.md R140–R142). The automatic count-down is
`State.timerStep`. -/

namespace Sys2Proof.Machine

/-- `LD Vx, DT` (R140): V[x] <- DT as it stands at the start of the tick. -/
def execLdVxDt (x : Reg) (s : State) : Result State := .next ((s.setReg x s.dt).advance 2#16)

/-- `LD DT, Vx` (R141): DT <- V[x]; the phase ACC is not restarted. -/
def execLdDtVx (x : Reg) (s : State) : Result State := .next ((s.setDt (s.reg x)).advance 2#16)

/-- `LD ST, Vx` (R142): ST <- V[x]. -/
def execLdStVx (x : Reg) (s : State) : Result State := .next ((s.setSt (s.reg x)).advance 2#16)

end Sys2Proof.Machine
end

