-- ==== Sys2Proof/Machine/Tick.lean ====
section
/-! DEFINITION. The parts of one tick around the execute step (10_state.md R33, R38): the run status, the
fetch, and what follows the execute step. `step` puts them together. -/

namespace Sys2Proof.Machine

/-- The run status of a state, and the output of a tick (R33, R37). -/
inductive Status where
  | running (pc : Word)
  | ended
  | faulted (f : Fault)
  deriving DecidableEq, Repr

/-- PC is at or past the end of the loaded program (R33). -/
def State.atEnd (s : State) : Bool := decide (Config.progBase + s.plen.val ≤ s.pc.toNat)

/-- The status, computed and not stored (R33). -/
def State.status (s : State) : Status :=
  match s.fault with
  | some f => .faulted f
  | none => if s.atEnd then .ended else .running s.pc

/-- The fetch (R38 step 3, 20_memory.md R56, R57): the word at PC, high byte first. -/
def State.fetch (s : State) : Except Fault Word :=
  if s.pc.toNat + 1 < Config.memSize then
    .ok (wordOfBytes (s.mem.read s.pc.toNat) (s.mem.read (s.pc.toNat + 1)))
  else .error .fetchOutOfRange

/-- Step 7: the timer step, which a tick that raised a fault does not run (R38, 60_exceptions.md
R168). -/
def State.runTimers (s : State) : State := if s.fault.isSome then s else s.timerStep

/-- What follows the execute step: the timer step, and the inputs of the tick are spent. -/
def afterExec : Result State → Result State
  | .next t => .next t.runTimers.nextInput
  | .fault r => .fault r
  | .refused r => .refused r

/-- Steps 4 and 5: the word is decoded and its rule runs (R38); a word that is no instruction is
UNKNOWN (40_control_flow.md R108). -/
def execWord (w : Word) (s : State) : Result State :=
  match decodeWord w with
  | some i => exec i s
  | none => execUnknown s

/-- A tick that executes nothing (R38 steps 1 and 2): only its inputs are spent. -/
def State.idle (s : State) : State := s.nextInput

/-- Steps 3 to 7, for a state that is running. -/
def State.executeTick (s : State) : Result State :=
  match s.fetch with
  | .error f => .next (s.raise f).nextInput
  | .ok w => afterExec (execWord w s)

/-- What a tick outputs that began in s and left t (R38 steps 1, 2 and 8, and a raised fault). -/
def tickOutput (s t : State) : Status :=
  match s.status with
  | .running _ =>
    match t.fault with
    | some f => .faulted f
    | none => .running t.pc
  | stopped => stopped

end Sys2Proof.Machine
end

