-- ==== Sys2Proof/Machine/Step.lean ====
section
/-! DEFINITION. One step of the machine is one tick (10_state.md R38); and the loading of one word for a
step to run. -/

namespace Sys2Proof.Machine

/-- One tick. A faulted machine and a machine at the end of its program change nothing (R38 steps 1 and
2); otherwise one instruction is fetched and executed and the timer step runs. -/
def step (s : State) : Host.Outcome State Fault Refusal :=
  match s.status with
  | .faulted _ => .next s.idle
  | .ended => .next s.idle
  | .running _ => s.executeTick

/-- The address the next fetch reads, moved to the entry point only where nothing can be fetched. -/
def State.fetchablePc (s : State) : Word :=
  if s.pc.toNat + 1 < Config.memSize then s.pc else BitVec.ofNat 16 Config.progBase

/-- The program length, extended over the two bytes at `pc` only where they lie past the end. -/
def State.lengthOver (s : State) (pc : Word) : Fin (Config.maxProgLen + 1) :=
  if pc.toNat < Config.progBase + s.plen.val then s.plen
  else Fin.ofNat _ (min (pc.toNat + 2 - Config.progBase) Config.maxProgLen)

/-- The state with the word `w` (numbered as the opcode table numbers it) stored where the next step
fetches, and the program length, PC and FAULT such that the next step runs it (assumption log 8). -/
def State.withFetchWord (s : State) (nbits w : Nat) : State :=
  let pc := s.fetchablePc
  { s with
    pc := pc
    plen := s.lengthOver pc
    fault := none
    mem := s.mem.writeSpan pc.toNat (bytesOfWord (tableWord nbits w)) }

end Sys2Proof.Machine
end

