-- ==== Sys2Proof/Machine/Transactions.lean ====
section
/-! DEFINITION. The block's five host transactions (10_state.md R37; 70_reset_and_hazards.md R190–R196;
44_display.md R148) over the core and the little the block remembers of what the host has issued
(assumption log 9). A transaction that has no meaning is refused by name. -/

namespace Sys2Proof.Machine

/-- What the host has issued since power-on (R191, R195). -/
inductive Phase where
  /-- nothing: there is no state yet -/
  | off
  /-- `init`, and neither a successful load nor a tick -/
  | ready
  /-- `init` and `load`, and no tick -/
  | loaded
  /-- a tick -/
  | ticked
  deriving DecidableEq, Repr

/-- The block as the host sees it. -/
structure Block where
  phase : Phase
  core : State
  deriving DecidableEq, Repr

/-- The reply of a `load` (R191). -/
inductive LoadReply where
  | ok
  | error
  deriving DecidableEq, Repr

/-- The block with no power-on yet; its core is unused. -/
def Block.powerOff : Block := ⟨.off, State.reset⟩

/-- `init` (R190), at any time: everything is discarded. The inputs of coming ticks are the host's, and
stay. -/
def Block.init (b : Block) : Block :=
  ⟨.ready, { State.reset with inputs := b.core.inputs, tickNo := b.core.tickNo }⟩

/-- A buffer that `load` accepts: 1 to 3584 bytes (R192). -/
def loadable (buffer : List Byte) : Bool :=
  decide (0 < buffer.length) && decide (buffer.length ≤ Config.maxProgLen)

/-- The effect of an accepted `load` (R191): the bytes from 0x200 on and PLEN, nothing else. -/
def State.withProgram (s : State) (buffer : List Byte) : State :=
  { s with mem := s.mem.writeSpan Config.progBase buffer, plen := Fin.ofNat _ buffer.length }

/-- `load` (R191, R192): an unacceptable length is an error in any phase; else only the first load after
`init`, before any tick, is accepted, and any other is refused. -/
def Block.load (buffer : List Byte) (b : Block) : Except Refusal (LoadReply × Block) :=
  if loadable buffer then
    match b.phase with
    | .ready => .ok (.ok, ⟨.loaded, b.core.withProgram buffer⟩)
    | .off => .error .notInitialised
    | .loaded | .ticked => .error .loadOutsideContract
  else .ok (.error, b)

/-- The in-place restart (R193): registers, stack, display, timers, phase and PC; memory and PLEN are
unchanged. -/
def State.restart (s : State) : State :=
  { s with
    v := Vector.replicate Config.numV 0#8
    i := 0#16
    pc := BitVec.ofNat 16 Config.progBase
    sp := 0
    stack := Vector.replicate Config.stackDepth 0#16
    dt := 0#8
    st := 0#8
    acc := 0
    disp := Vector.replicate Config.dispBytes 0#8 }

/-- `reset` (R193), refused while FAULT ≠ 0 (R194). -/
def Block.reset (b : Block) : Except Refusal Block :=
  match b.phase with
  | .off => .error .notInitialised
  | .ready | .loaded | .ticked =>
    if b.core.fault.isSome then .error .resetWhileFaulted else .ok ⟨b.phase, b.core.restart⟩

/-- `tick(KEYS, RAND)` (R38): the step with these inputs, and its output. -/
def Block.tick (input : TickInput) (b : Block) : Except Refusal (Status × Block) :=
  match b.phase with
  | .off => .error .notInitialised
  | .ready | .loaded | .ticked =>
    match step { b.core with inputs := input :: b.core.inputs } with
    | .next t => .ok (tickOutput b.core t, ⟨.ticked, t⟩)
    | .fault f => .ok (.faulted f, ⟨.ticked, b.core⟩)
    | .refused r => .error r

/-- `pixel` (R148): the bit of the linear index, refused outside 0..2047. -/
def Block.pixel (p : Nat) (b : Block) : Except Refusal Bool :=
  match b.phase with
  | .off => .error .notInitialised
  | .ready | .loaded | .ticked =>
    if p < Config.dispPixels then .ok (dispBit b.core.disp p) else .error .pixelIndexOutOfRange

/-- The continuous output ST (R37, 60_exceptions.md R175). -/
def Block.soundOutput (b : Block) : Byte := b.core.st

/-- The continuous output FAULT (R37). -/
def Block.faultOutput (b : Block) : BitVec 3 := b.core.faultCode

end Sys2Proof.Machine
end

