-- ==== Sys2Proof/Safety.lean ====
section
/-! DEFINITION. The terms the statements use: which parts of the state two states share, what it is for
an instruction to complete with a given effect, and the invariant of every reachable state. -/

namespace Sys2Proof.Machine

/-! ### Frames -/

/-- The parts of State (10_state.md R42); `env` is the model's own input queue and tick counter. -/
inductive Part where
  | v | i | pc | sp | stack | dt | st | acc | mem | disp | plen | fault | env
  deriving DecidableEq, Repr

/-- The part is the same in both states; for registers and memory, as read. -/
def SameAt : Part → State → State → Prop
  | .v, s, t => ∀ r, t.reg r = s.reg r
  | .i, s, t => t.i = s.i
  | .pc, s, t => t.pc = s.pc
  | .sp, s, t => t.sp = s.sp
  | .stack, s, t => t.stack = s.stack
  | .dt, s, t => t.dt = s.dt
  | .st, s, t => t.st = s.st
  | .acc, s, t => t.acc = s.acc
  | .mem, s, t => ∀ a, t.mem.read a = s.mem.read a
  | .disp, s, t => t.disp = s.disp
  | .plen, s, t => t.plen = s.plen
  | .fault, s, t => t.fault = s.fault
  | .env, s, t => t.inputs = s.inputs ∧ t.tickNo = s.tickNo

/-- Every part but the listed ones is the same in both states. -/
def Frame (changed : List Part) (s t : State) : Prop := ∀ p, p ∉ changed → SameAt p s t

/-! ### Completion

Each of the predicates below says that the word w decodes to the instruction i and that `exec i s`
ANSWERS A NEXT STATE, with what that state holds and what it leaves unchanged. -/

/-- Only V[x] changes, to `value`, and PC advances by 2. -/
def WritesReg (w : Word) (i : Instr) (x : Reg) (value : Byte) (s : State) : Prop :=
  decodeWord w = some i ∧
  ∃ t, exec i s = .next t ∧ t.reg x = value ∧ (∀ r, r ≠ x → t.reg r = s.reg r) ∧ t.pc = s.pc + 2 ∧
    Frame [.v, .pc] s t

/-- V[x] and then VF are written: VF ends at `flag`, also where x is F; PC advances by 2. -/
def WritesRegFlag (w : Word) (i : Instr) (x : Reg) (value flag : Byte) (s : State) : Prop :=
  decodeWord w = some i ∧
  ∃ t, exec i s = .next t ∧ t.reg 15 = flag ∧ (x ≠ 15 → t.reg x = value) ∧
    (∀ r, r ≠ x → r ≠ 15 → t.reg r = s.reg r) ∧ t.pc = s.pc + 2 ∧ Frame [.v, .pc] s t

/-- Only PC changes, to `target`. -/
def MovesPc (w : Word) (i : Instr) (target : Word) (s : State) : Prop :=
  decodeWord w = some i ∧ ∃ t, exec i s = .next t ∧ t.pc = target ∧ Frame [.pc] s t

/-- Only I changes, to `value`, and PC advances by 2. -/
def WritesIndex (w : Word) (i : Instr) (value : Nat) (s : State) : Prop :=
  decodeWord w = some i ∧
  ∃ t, exec i s = .next t ∧ t.i.toNat = value ∧ t.pc = s.pc + 2 ∧ Frame [.i, .pc] s t

/-- The instruction raises the fault: FAULT holds it and nothing else changes. -/
def TakesFault (i : Instr) (f : Fault) (s : State) : Prop :=
  ∃ t, exec i s = .next t ∧ t.fault = some f ∧ Frame [.fault] s t

/-! ### Running -/

/-- The next tick fetches and decodes the word w: the state is Running and both bytes at PC are in
memory (10_state.md R33, R38). -/
def Fetches (s : State) (w : Word) : Prop :=
  s.fault = none ∧ s.pc.toNat < Config.progBase + s.plen.val ∧ s.pc.toNat + 1 < Config.memSize ∧
    wordOfBytes (s.mem.read s.pc.toNat) (s.mem.read (s.pc.toNat + 1)) = w

/-- k ticks, stopping at the first that answers no next state. -/
def ticks : Nat → State → Result State
  | 0, s => .next s
  | k + 1, s =>
    match step s with
    | .next t => ticks k t
    | .fault r => .fault r
    | .refused r => .refused r

/-- A safe state: no fault has stopped the machine. A safe run is one whose states are all safe. -/
def State.Safe (s : State) : Prop := s.fault = none

/-- What holds of every reachable state: memory is in its canonical form, PC is at most 0x10FE (R40), and
every stack entry is at most 0x1000 (R40). -/
structure State.Inv (s : State) : Prop where
  memCanonical : s.mem.wf = true
  pcBound : s.pc.toNat ≤ 0x10FE
  stackBound : ∀ k : Fin Config.stackDepth, (s.stack[k.val]'k.isLt).toNat ≤ 0x1000

/-! ### The stack as a list -/

/-- Push the words in order (R25). -/
def pushAll : List Word → State → Except Fault State
  | [], s => .ok s
  | w :: ws, s => (s.push w).bind (pushAll ws)

/-- Pop n words, the first popped first (R25). -/
def popMany : Nat → State → Except Fault (List Word × State)
  | 0, s => .ok ([], s)
  | n + 1, s => s.pop.bind fun p => (popMany n p.2).map fun q => (p.1 :: q.1, q.2)

/-! ### The sprite on the screen -/

/-- DRW's sprite has a 1 bit on the pixel in column px and row py: the column lies 0..7 to the right of
V[x] and the row 0..n-1 below V[y], both modulo the screen's size (44_display.md R146). -/
def spriteCovers (s : State) (x y : Reg) (n : Nibble) (px py : Nat) : Bool :=
  let col := (px + Config.dispW - (s.reg x).toNat % Config.dispW) % Config.dispW
  let row := (py + Config.dispH - (s.reg y).toNat % Config.dispH) % Config.dispH
  decide (col < 8) && decide (row < n.toNat) && (s.mem.read (s.indexAddress + row)).getLsbD (7 - col)

end Sys2Proof.Machine
end

