-- ==== Sys2Proof/Certificates/Slice0/Obligations.lean ====
section
/-! DEFINITION. The statements for the provers. `R<n>` is a rule of spec/, `D<n>` a decision the spec marks
as its own, `log n` the row n of the assumption log; V[x], I, PC, … in the docstrings are those of the state
before. Every word of a statement rests on the opcode map of D3 (log 2), every fetched word on the byte
order of D2 (log 1). -/

open Sys2Proof Sys2Proof.Machine

/-! ### Encoding -/

/-- Decoding the bytes of an instruction gives it back, whatever bytes follow (R56, R70–R79; byte order
D2, log 1). -/
def Obligations.DecodeOfEncodeIsTheInstruction : Prop :=
  ∀ (i : Instr) (rest : List Byte), decode (encode i ++ rest) = .ok (i, rest)

/-- A word that decodes to an instruction is that instruction's encoding, so no bit of it is dropped. That
the ignored nibble of 5xyN and 9xyN and the y of the shifts are kept in the syntax is the model's choice
(log 19); the opcode map is D3 (log 2). -/
def Obligations.EncodeOfDecodeIsTheWord : Prop :=
  ∀ (w : Word) (i : Instr), decodeWord w = some i → encodeWord i = w

/-- The two-level dispatch of R74–R79 agrees with the opcode table: a word decodes to an instruction of a
row exactly when it has the row's fixed bits, it has those of at most one row, and it is UNKNOWN exactly
when it has those of none. -/
def Obligations.DispatchAgreesWithTheOpcodeTable : Prop :=
  ∀ (w : Word),
    (∀ r ∈ opcodeTable, r.covers w = true ↔ ∃ i, decodeWord w = some i ∧ i.mnemonic = r.mnemonic) ∧
    (∀ r ∈ opcodeTable, ∀ q ∈ opcodeTable, r.covers w = true → q.covers w = true → r = q) ∧
    (decodeWord w = none ↔ ∀ r ∈ opcodeTable, r.covers w = false)

/-- Words written out from R75–R79 (spec/95_test_vectors.md 2.1), one of each format and group (map D3,
log 2). -/
def Obligations.WrittenWordsDecode : Prop :=
  decodeWord 0x00E0#16 = some .cls ∧ decodeWord 0x12E0#16 = some (.jp 0x2E0#12) ∧
  decodeWord 0x6342#16 = some (.ldByte 3 0x42#8) ∧ decodeWord 0x5121#16 = some (.seReg 1 2 1#4) ∧
  decodeWord 0x8126#16 = some (.shr 1 2) ∧ decodeWord 0xD12F#16 = some (.drw 1 2 0xF#4) ∧
  decodeWord 0xE1A1#16 = some (.sknp 1) ∧ decodeWord 0xF155#16 = some (.ldMemVx 1) ∧
  decodeWord 0x812F#16 = none ∧ decodeWord 0xF012#16 = none ∧ decodeWord 0x0000#16 = none

/-! ### The tick -/

/-- R38 steps 3 to 7 (the tick as a transaction is D1, log 9): where the two bytes at PC decode to i and
exec answers t, the tick leaves t with the timer step of R173 (D13, log 14) and R174 taken, or, where t
took a fault, t itself; one pair of inputs is spent (log 4, the model's choice). -/
def Obligations.StepRunsTheDecodedInstruction : Prop :=
  ∀ (s t : State) (i : Instr),
    s.fault = none → s.pc.toNat < 0x200 + s.plen.val → s.pc.toNat + 1 < 4096 →
    decode [s.mem.read s.pc.toNat, s.mem.read (s.pc.toNat + 1)] = .ok (i, []) → exec i s = .next t →
    ∃ u, step s = .next u ∧ u.inputs = t.inputs.tail ∧
      (t.fault = none → Frame [.acc, .dt, .st, .env] t u ∧ u.acc.val = (t.acc.val + 1) % 9 ∧
        u.dt.toNat = (if t.acc.val = 8 then t.dt.toNat - 1 else t.dt.toNat) ∧
        u.st.toNat = (if t.acc.val = 8 then t.st.toNat - 1 else t.st.toNat)) ∧
      (t.fault ≠ none → Frame [.env] t u)

/-- Every tick of every state answers a next state: nothing stops the model (R38, R80). -/
def Obligations.EveryTickAnswersANextState : Prop := ∀ (s : State), ∃ t, step s = .next t

/-- R33: the run status reads FAULT, PC and PLEN alone, and a run that is Ended or Faulted stays so and
changes nothing, for any number of ticks. -/
def Obligations.StoppedRunsNeverMove : Prop :=
  ∀ (s : State) (k : Nat),
    (∀ f, s.status = .faulted f ↔ s.fault = some f) ∧
    (s.status = .ended ↔ s.fault = none ∧ 0x200 + s.plen.val ≤ s.pc.toNat) ∧
    (∀ pc, s.status = .running pc ↔ s.fault = none ∧ s.pc.toNat < 0x200 + s.plen.val ∧ pc = s.pc) ∧
    ((∀ pc, s.status ≠ .running pc) →
      ∃ t, ticks k s = .next t ∧ Frame [.env] s t ∧ t.status = s.status)

/-- R160, R168 (decision D10, log 7): the tick that raises a fault changes FAULT and nothing else and
outputs Faulted(code), and every later tick changes nothing and outputs Faulted(code). -/
def Obligations.FaultIsPreciseAndTerminal : Prop :=
  ∀ (s t : State) (f : Fault), s.fault = none → step s = .next t → t.fault = some f →
    Frame [.fault, .env] s t ∧ tickOutput s t = .faulted f ∧
    ∀ k, ∃ u u', ticks k t = .next u ∧ step u = .next u' ∧ Frame [.env] t u ∧ tickOutput u u' = .faulted f

/-- R165 (decision D8, log 12): the fetch faults exactly at PC = 0xFFF, which a running machine reaches
only with PLEN = 3584. -/
def Obligations.FetchFaultsOnlyAtTheTopOfMemory : Prop :=
  ∀ (s : State), s.fault = none → s.pc.toNat < 0x200 + s.plen.val →
    ((∃ t, step s = .next t ∧ t.fault = some .fetchOutOfRange) ↔ s.pc = 0xFFF#16) ∧
    (s.pc = 0xFFF#16 → s.plen.val = 3584)

/-- R169, with R162, R163, R164 and R166 (decisions D7, D9, D27, log 12): which instruction raises which
fault, and exactly when. -/
def Obligations.EachFaultHasItsOneCause : Prop :=
  ∀ (i : Instr) (s t : State) (f : Fault), s.Safe → exec i s = .next t →
    (t.fault = some f ↔
      (f = .stackOverflow ∧ (∃ nnn, i = .call nnn) ∧ s.sp.val = 16) ∨
      (f = .stackUnderflow ∧ i = .ret ∧ s.sp.val = 0) ∨
      (f = .memoryOutOfRange ∧
        ((∃ x y n, i = .drw x y n ∧ n.toNat ≠ 0 ∧ 4096 ≤ s.i.toNat + (n.toNat - 1)) ∨
         (∃ x, i = .ldB x ∧ 4096 ≤ s.i.toNat + 2) ∨
         (∃ x, (i = .ldMemVx x ∨ i = .ldVxMem x) ∧ 4096 ≤ s.i.toNat + x.val))) ∨
      (f = .keyIndexOutOfRange ∧ ∃ x, (i = .skp x ∨ i = .sknp x) ∧ 15 < (s.reg x).toNat))

/-- R201 (decisions D16, log 15; D13, log 14): on an UNKNOWN word the machine stays Running at the same PC
for any number of ticks, and only the timers move, once in nine ticks (R173, R174). -/
def Obligations.UnknownWordHangsWhileTimersRun : Prop :=
  ∀ (s : State) (w : Word) (k : Nat), Fetches s w → decodeWord w = none →
    ∃ t, ticks k s = .next t ∧ Frame [.acc, .dt, .st, .env] s t ∧ t.status = .running s.pc ∧
      t.acc.val = (s.acc.val + k) % 9 ∧ t.dt.toNat = s.dt.toNat - (s.acc.val + k) / 9 ∧
      t.st.toNat = s.st.toNat - (s.acc.val + k) / 9

/-- R200: while no key is down, LD Vx,K holds PC on every tick and the timers run, once in nine ticks
(R173; decision D13, log 14); the tick on which one is down stores the lowest-numbered key and moves on
(R153). Every tick spends one pair of the queued inputs (log 4, the model's choice). -/
def Obligations.KeyWaitStallsUntilAKeyIsDown : Prop :=
  ∀ (s : State) (x : Reg) (rands : List (BitVec 8)) (keys : BitVec 16) (rand : BitVec 8) (rest : List TickInput),
    Fetches s (wordXKK 0xF#4 x 0x0A#8) → keys ≠ 0#16 →
    s.inputs = rands.map (fun r => ⟨0#16, r⟩) ++ ⟨keys, rand⟩ :: rest →
    ∃ t u, ticks rands.length s = .next t ∧ step t = .next u ∧
      Frame [.acc, .dt, .st, .env] s t ∧ t.acc.val = (s.acc.val + rands.length) % 9 ∧
      t.dt.toNat = s.dt.toNat - (s.acc.val + rands.length) / 9 ∧
      t.st.toNat = s.st.toNat - (s.acc.val + rands.length) / 9 ∧
      u.pc = s.pc + 2 ∧ (u.reg x).toNat ≤ 15 ∧ keys.getLsbD (15 - (u.reg x).toNat) = true ∧
      (∀ j, j < (u.reg x).toNat → keys.getLsbD (15 - j) = false) ∧ u.inputs = rest

/-- R174: the timer step that completes the phase counts DT and ST down by at most one, never below zero;
any other leaves both. That the phase is complete at ACC = 8 is R173 with decision D13 (log 14). -/
def Obligations.TimersCountDownByAtMostOne : Prop :=
  ∀ (s : State),
    (s.acc.val = 8 → s.timerStep.dt.toNat = s.dt.toNat - 1 ∧ s.timerStep.st.toNat = s.st.toNat - 1) ∧
    (s.acc.val < 8 → s.timerStep.dt = s.dt ∧ s.timerStep.st = s.st)

/-- R173, R199 (decisions D13, D14, log 14): every tick that executes an instruction moves the phase by
one modulo nine, and on the ninth counts ST and DT down; LD DT and LD ST write first. -/
def Obligations.EveryExecutedTickTakesTheTimerStep : Prop :=
  ∀ (s t : State) (w : Word), Fetches s w → step s = .next t → t.fault = none →
    t.acc.val = (s.acc.val + 1) % 9 ∧
    (∀ x, decodeWord w = some (.ldDtVx x) →
      t.dt.toNat = if s.acc.val = 8 then (s.reg x).toNat - 1 else (s.reg x).toNat) ∧
    ((∀ x, decodeWord w ≠ some (.ldDtVx x)) →
      t.dt.toNat = if s.acc.val = 8 then s.dt.toNat - 1 else s.dt.toNat) ∧
    (∀ x, decodeWord w = some (.ldStVx x) →
      t.st.toNat = if s.acc.val = 8 then (s.reg x).toNat - 1 else (s.reg x).toNat) ∧
    ((∀ x, decodeWord w ≠ some (.ldStVx x)) →
      t.st.toNat = if s.acc.val = 8 then s.st.toNat - 1 else s.st.toNat)

/-! ### Register loads and arithmetic -/

/-- R111–R116: the loads and the logic instructions write V[x] alone, VF only where x is F. -/
def Obligations.LoadsAndLogicWriteVxAlone : Prop :=
  ∀ (s : State) (x y : Reg) (kk : Byte),
    WritesReg (wordXKK 0x6#4 x kk) (.ldByte x kk) x kk s ∧
    WritesReg (wordXKK 0x7#4 x kk) (.addByte x kk) x (BitVec.ofNat 8 (((s.reg x).toNat + kk.toNat) % 256)) s ∧
    WritesReg (wordXYN 0x8#4 x y 0x0#4) (.ldReg x y) x (s.reg y) s ∧
    WritesReg (wordXYN 0x8#4 x y 0x1#4) (.orReg x y) x (s.reg x ||| s.reg y) s ∧
    WritesReg (wordXYN 0x8#4 x y 0x2#4) (.andReg x y) x (s.reg x &&& s.reg y) s ∧
    WritesReg (wordXYN 0x8#4 x y 0x3#4) (.xorReg x y) x (s.reg x ^^^ s.reg y) s

/-- R117, R118, R120: the sum or difference modulo 256, and VF the carry, or whether the first operand was
strictly greater; VF is written last, so it ends at the flag also for x = F (R110). Reading y = F before
the flag is written is the spec's own decision D5 (log 10). -/
def Obligations.AddAndSubtractSetVf : Prop :=
  ∀ (s : State) (x y : Reg),
    WritesRegFlag (wordXYN 0x8#4 x y 0x4#4) (.addReg x y) x
      (BitVec.ofNat 8 (((s.reg x).toNat + (s.reg y).toNat) % 256))
      (if (s.reg x).toNat + (s.reg y).toNat > 255 then 1#8 else 0#8) s ∧
    WritesRegFlag (wordXYN 0x8#4 x y 0x5#4) (.subReg x y) x
      (BitVec.ofInt 8 ((s.reg x).toNat - (s.reg y).toNat))
      (if (s.reg x).toNat > (s.reg y).toNat then 1#8 else 0#8) s ∧
    WritesRegFlag (wordXYN 0x8#4 x y 0x7#4) (.subnReg x y) x
      (BitVec.ofInt 8 ((s.reg y).toNat - (s.reg x).toNat))
      (if (s.reg y).toNat > (s.reg x).toNat then 1#8 else 0#8) s

/-- R119, R121: V[x] halved or doubled modulo 256, VF the bit shifted out; y is not read. -/
def Obligations.ShiftsMoveTheBitOutIntoVf : Prop :=
  ∀ (s : State) (x y : Reg),
    WritesRegFlag (wordXYN 0x8#4 x y 0x6#4) (.shr x y) x
      (BitVec.ofNat 8 ((s.reg x).toNat / 2)) (BitVec.ofNat 8 ((s.reg x).toNat % 2)) s ∧
    WritesRegFlag (wordXYN 0x8#4 x y 0xE#4) (.shl x y) x
      (BitVec.ofNat 8 ((s.reg x).toNat * 2 % 256)) (BitVec.ofNat 8 ((s.reg x).toNat / 128)) s

/-- R122: V[x] <- RAND & kk, for every random byte the tick may be given. -/
def Obligations.RandomMasksTheInputByte : Prop :=
  ∀ (s : State) (x : Reg) (kk : Byte),
    WritesReg (wordXKK 0xC#4 x kk) (.rnd x kk) x (s.rand &&& kk) s ∧
    ∀ (keys : BitVec 16) (rand : BitVec 8) (rest : List TickInput),
      WritesReg (wordXKK 0xC#4 x kk) (.rnd x kk) x (rand &&& kk) { s with inputs := ⟨keys, rand⟩ :: rest }

/-! ### Control flow -/

/-- R100, R107: the jumps, whose targets never wrap. -/
def Obligations.JumpsGoToTheirTargets : Prop :=
  ∀ (s : State) (nnn : Addr),
    MovesPc (wordADDR 0x1#4 nnn) (.jp nnn) (BitVec.ofNat 16 nnn.toNat) s ∧
    MovesPc (wordADDR 0xB#4 nnn) (.jpV0 nnn) (BitVec.ofNat 16 (nnn.toNat + (s.reg 0).toNat)) s ∧
    nnn.toNat + (s.reg 0).toNat ≤ 0x10FE

/-- R103–R106: advance 4 when the condition holds and 2 otherwise, whatever the skipped word holds and
whatever the ignored nibble of 5xyN and 9xyN is. -/
def Obligations.SkipsAdvanceFourOrTwo : Prop :=
  ∀ (s : State) (x y : Reg) (kk : Byte) (ign : Nibble),
    MovesPc (wordXKK 0x3#4 x kk) (.seByte x kk) (if s.reg x = kk then s.pc + 4 else s.pc + 2) s ∧
    MovesPc (wordXKK 0x4#4 x kk) (.sneByte x kk) (if s.reg x ≠ kk then s.pc + 4 else s.pc + 2) s ∧
    MovesPc (wordXYN 0x5#4 x y ign) (.seReg x y ign) (if s.reg x = s.reg y then s.pc + 4 else s.pc + 2) s ∧
    MovesPc (wordXYN 0x9#4 x y ign) (.sneReg x y ign) (if s.reg x ≠ s.reg y then s.pc + 4 else s.pc + 2) s

/-- R101: CALL pushes PC + 2 (decision D6, log 11) and jumps where SP < 16, and raises StackOverflow where
SP = 16 (R162). -/
def Obligations.CallPushesTheReturnAddress : Prop :=
  ∀ (s : State) (nnn : Addr),
    decodeWord (wordADDR 0x2#4 nnn) = some (.call nnn) ∧
    (s.sp.val < 16 → ∃ t, exec (.call nnn) s = .next t ∧ t.pc.toNat = nnn.toNat ∧ t.sp.val = s.sp.val + 1 ∧
      (∀ k : Fin 16, t.stack[k] = if k.val = s.sp.val then s.pc + 2 else s.stack[k]) ∧
      Frame [.pc, .sp, .stack] s t) ∧
    (s.sp.val = 16 → TakesFault (.call nnn) .stackOverflow s)

/-- R102: RET goes to the entry below SP, with nothing added and the entry kept (decision D6, log 11), and
raises StackUnderflow where SP = 0 (R163). -/
def Obligations.ReturnPopsTheStack : Prop :=
  ∀ (s : State),
    decodeWord 0x00EE#16 = some .ret ∧
    (0 < s.sp.val → ∃ t, exec .ret s = .next t ∧ t.sp.val + 1 = s.sp.val ∧
      (∀ k : Fin 16, k.val + 1 = s.sp.val → t.pc = s.stack[k]) ∧ Frame [.pc, .sp] s t) ∧
    (s.sp.val = 0 → TakesFault .ret .stackUnderflow s)

/-- A RET resumes at the CALL's PC + 2 with the CALL's SP in every state with the SP the CALL left and the
entries below it as the CALL left them, whatever the entries at SP and above (R101, R102; decision D6, log
11). -/
def Obligations.ReturnResumesAfterTheCall : Prop :=
  ∀ (s t u : State) (nnn : Addr), s.sp.val < 16 → exec (.call nnn) s = .next t →
    u.sp = t.sp → (∀ j : Fin 16, j.val < t.sp.val → u.stack[j] = t.stack[j]) →
    ∃ v, exec .ret u = .next v ∧ v.pc = s.pc + 2 ∧ v.sp = s.sp

/-- R25: what is pushed is popped in reverse order, the entries stay in place (decision D6, log 11), and
the 17th push and the pop of an empty stack fault. -/
def Obligations.StackIsLastInFirstOut : Prop :=
  ∀ (s : State) (ws : List Word),
    (s.sp.val + ws.length ≤ 16 → ∃ t u, pushAll ws s = .ok t ∧ popMany ws.length t = .ok (ws.reverse, u) ∧
      u.sp = s.sp ∧ u.stack = t.stack) ∧
    (∀ w, s.sp.val = 16 → s.push w = .error .stackOverflow) ∧
    (s.sp.val = 0 → s.pop = .error .stackUnderflow)

/-! ### Index register and memory -/

/-- R130, R132: I is the address, or the address of the glyph of V[x]'s low nibble. -/
def Obligations.IndexLoadsWriteIAlone : Prop :=
  ∀ (s : State) (x : Reg) (nnn : Addr),
    WritesIndex (wordADDR 0xA#4 nnn) (.ldI nnn) nnn.toNat s ∧
    WritesIndex (wordXKK 0xF#4 x 0x29#8) (.ldF x) ((s.reg x).toNat % 16 * 5) s

/-- R131: I + V[x] modulo 2^16 (the width is decision D12, log 13), without a flag and without a fault. -/
def Obligations.AddToIndexWrapsAtSixteenBits : Prop :=
  ∀ (s : State) (x : Reg),
    WritesIndex (wordXKK 0xF#4 x 0x1E#8) (.addI x) ((s.i.toNat + (s.reg x).toNat) % 65536) s

/-- R133: the three decimal digits at I, I+1, I+2, every other byte as before; MemoryOutOfRange where I +
2 ≥ 4096 (decision D7, log 12). The address stored to is `s.indexAddress`. -/
def Obligations.BcdStoresThreeDigits : Prop :=
  ∀ (s : State) (x : Reg),
    decodeWord (wordXKK 0xF#4 x 0x33#8) = some (.ldB x) ∧
    (s.indexAddress + 2 < 4096 → ∃ t, exec (.ldB x) s = .next t ∧
      (t.mem.read s.indexAddress).toNat = (s.reg x).toNat / 100 ∧
      (t.mem.read (s.indexAddress + 1)).toNat = (s.reg x).toNat / 10 % 10 ∧
      (t.mem.read (s.indexAddress + 2)).toNat = (s.reg x).toNat % 10 ∧
      (∀ a, a < s.indexAddress ∨ s.indexAddress + 2 < a → t.mem.read a = s.mem.read a) ∧
      t.pc = s.pc + 2 ∧ Frame [.mem, .pc] s t) ∧
    (4096 ≤ s.indexAddress + 2 → TakesFault (.ldB x) .memoryOutOfRange s)

/-- R134: V0..Vx at I..I+x, every other byte as before, I unchanged (decision D11, log 13);
MemoryOutOfRange where I + x ≥ 4096 (decision D7, log 12). The address stored to is `s.indexAddress`. -/
def Obligations.BlockStoreCopiesV0ToVx : Prop :=
  ∀ (s : State) (x : Reg),
    decodeWord (wordXKK 0xF#4 x 0x55#8) = some (.ldMemVx x) ∧
    (s.indexAddress + x.val < 4096 → ∃ t, exec (.ldMemVx x) s = .next t ∧
      (∀ k : Reg, k.val ≤ x.val → t.mem.read (s.indexAddress + k.val) = s.reg k) ∧
      (∀ a, a < s.indexAddress ∨ s.indexAddress + x.val < a → t.mem.read a = s.mem.read a) ∧
      t.pc = s.pc + 2 ∧ Frame [.mem, .pc] s t) ∧
    (4096 ≤ s.indexAddress + x.val → TakesFault (.ldMemVx x) .memoryOutOfRange s)

/-- R135: V0..Vx from I..I+x, the registers above x as before, I unchanged (decision D11, log 13);
MemoryOutOfRange where I + x ≥ 4096 (decision D7, log 12). -/
def Obligations.BlockLoadCopiesV0ToVx : Prop :=
  ∀ (s : State) (x : Reg),
    decodeWord (wordXKK 0xF#4 x 0x65#8) = some (.ldVxMem x) ∧
    (s.indexAddress + x.val < 4096 → ∃ t, exec (.ldVxMem x) s = .next t ∧
      (∀ k : Reg, t.reg k = if k.val ≤ x.val then s.mem.read (s.indexAddress + k.val) else s.reg k) ∧
      t.pc = s.pc + 2 ∧ Frame [.v, .pc] s t) ∧
    (4096 ≤ s.indexAddress + x.val → TakesFault (.ldVxMem x) .memoryOutOfRange s)

/-- R63: where LD [I],Vx or LD B,Vx stores at PC + 2, the next tick fetches what it stored there: V0 and
V1 (with x = 0 the second byte is as before), or the hundreds and the tens. -/
def Obligations.StoredCodeIsFetchedAtOnce : Prop :=
  ∀ (s t : State) (x : Reg), s.i = s.pc + 2 → step s = .next t →
    (Fetches s (wordXKK 0xF#4 x 0x55#8) → s.i.toNat + x.val < 4096 → s.i.toNat + 1 < 4096 →
      t.fetch = .ok (wordOfBytes (s.reg 0) (if x.val = 0 then s.mem.read (s.i.toNat + 1) else s.reg 1))) ∧
    (Fetches s (wordXKK 0xF#4 x 0x33#8) → s.i.toNat + 2 < 4096 →
      t.fetch = .ok (wordOfBytes (BitVec.ofNat 8 ((s.reg x).toNat / 100))
        (BitVec.ofNat 8 ((s.reg x).toNat / 10 % 10))))

/-- Two memories in canonical form that read the same at every address are equal (the form of R30's
memory; log 20, the model's choice). -/
def Obligations.CanonicalMemoriesAreEqualWhenTheyReadTheSame : Prop :=
  ∀ (m n : Memory), m.wf = true → n.wf = true → (∀ a, m.read a = n.read a) → m = n

/-! ### Timers -/

/-- R140: LD Vx,DT reads DT as it stands at the start of the tick. -/
def Obligations.DelayTimerIsReadAsItStands : Prop :=
  ∀ (s : State) (x : Reg), WritesReg (wordXKK 0xF#4 x 0x07#8) (.ldVxDt x) x s.dt s

/-- R141, R142 (decision D4, log 2): LD DT,Vx and LD ST,Vx write the timer and leave the phase. -/
def Obligations.TimerLoadsWriteTheTimerAlone : Prop :=
  ∀ (s : State) (x : Reg),
    decodeWord (wordXKK 0xF#4 x 0x15#8) = some (.ldDtVx x) ∧
    (∃ t, exec (.ldDtVx x) s = .next t ∧ t.dt = s.reg x ∧ t.pc = s.pc + 2 ∧ Frame [.dt, .pc] s t) ∧
    decodeWord (wordXKK 0xF#4 x 0x18#8) = some (.ldStVx x) ∧
    (∃ t, exec (.ldStVx x) s = .next t ∧ t.st = s.reg x ∧ t.pc = s.pc + 2 ∧ Frame [.st, .pc] s t)

/-! ### Display -/

/-- R145: every byte of the framebuffer is 0, so every pixel is dark; VF is not written. -/
def Obligations.ClearScreenDarkensEveryPixel : Prop :=
  ∀ (s : State),
    decodeWord 0x00E0#16 = some .cls ∧
    ∃ t, exec .cls s = .next t ∧ (∀ j : Fin 256, t.disp[j] = 0#8) ∧ (∀ p, dispBit t.disp p = false) ∧
      t.pc = s.pc + 2 ∧ Frame [.disp, .pc] s t

/-- R146, R147: DRW XORs onto each pixel the sprite bit that lands on it, wrapped, and VF ends at 1
exactly when some pixel went from set to unset; where a sprite byte lies at 4096 or above nothing is drawn
(decision D7, log 12). With n = 0 no byte is read and VF ends at 0 (decision D17, log 16). With x or y = F
the coordinate is the old VF (decision D5, log 10). -/
def Obligations.DrawXorsTheSpriteAndReportsCollision : Prop :=
  ∀ (s : State) (x y : Reg) (n : Nibble),
    decodeWord (wordXYN 0xD#4 x y n) = some (.drw x y n) ∧
    (n.toNat = 0 ∨ s.indexAddress + (n.toNat - 1) < 4096 → ∃ t, exec (.drw x y n) s = .next t ∧
      (∀ px py, px < 64 → py < 32 →
        dispBit t.disp (py * 64 + px) = (dispBit s.disp (py * 64 + px) ^^ spriteCovers s x y n px py)) ∧
      (t.reg 15 = 1#8 ∨ t.reg 15 = 0#8) ∧
      (t.reg 15 = 1#8 ↔ ∃ px py, px < 64 ∧ py < 32 ∧ dispBit s.disp (py * 64 + px) = true ∧
        dispBit t.disp (py * 64 + px) = false) ∧
      (∀ r, r ≠ 15 → t.reg r = s.reg r) ∧ t.pc = s.pc + 2 ∧ Frame [.v, .disp, .pc] s t) ∧
    (n.toNat ≠ 0 → 4096 ≤ s.indexAddress + (n.toNat - 1) → TakesFault (.drw x y n) .memoryOutOfRange s)

/-- Drawing the same sprite at the same place a second time restores the framebuffer (R146; with x or y =
F the coordinate is the old VF, decision D5, log 10). -/
def Obligations.DrawingTwiceRestoresTheScreen : Prop :=
  ∀ (s t u v : State) (x y : Reg) (n : Nibble), s.Safe → exec (.drw x y n) s = .next t → t.Safe →
    u.disp = t.disp → u.mem = s.mem → u.i = s.i → u.reg x = s.reg x → u.reg y = s.reg y →
    exec (.drw x y n) u = .next v → v.disp = s.disp

/-! ### Key input -/

/-- R151, R152: skip when key V[x] is down, or is not; KeyIndexOutOfRange where V[x] > 15 (decision D9,
log 12). -/
def Obligations.KeySkipsTestTheKeyOfVx : Prop :=
  ∀ (s : State) (x : Reg),
    ((s.reg x).toNat ≤ 15 →
      MovesPc (wordXKK 0xE#4 x 0x9E#8) (.skp x)
        (if s.keys.getLsbD (15 - (s.reg x).toNat) then s.pc + 4 else s.pc + 2) s ∧
      MovesPc (wordXKK 0xE#4 x 0xA1#8) (.sknp x)
        (if s.keys.getLsbD (15 - (s.reg x).toNat) then s.pc + 2 else s.pc + 4) s) ∧
    (15 < (s.reg x).toNat →
      TakesFault (.skp x) .keyIndexOutOfRange s ∧ TakesFault (.sknp x) .keyIndexOutOfRange s)

/-- R153: with no key down nothing changes, PC included; else V[x] is the lowest-numbered key down. -/
def Obligations.KeyLoadStoresTheLowestKeyOrStalls : Prop :=
  ∀ (s : State) (x : Reg),
    decodeWord (wordXKK 0xF#4 x 0x0A#8) = some (.ldVxK x) ∧
    (s.keys = 0#16 → ∃ t, exec (.ldVxK x) s = .next t ∧ Frame [] s t) ∧
    (s.keys ≠ 0#16 → ∃ t k, exec (.ldVxK x) s = .next t ∧ k ≤ 15 ∧ s.keys.getLsbD (15 - k) = true ∧
      (∀ j, j < k → s.keys.getLsbD (15 - j) = false) ∧ (t.reg x).toNat = k ∧
      (∀ r, r ≠ x → t.reg r = s.reg r) ∧ t.pc = s.pc + 2 ∧ Frame [.v, .pc] s t)

/-! ### The whole machine -/

/-- R21: VF changes only by a flag-producing instruction, or as the destination F of another. -/
def Obligations.OnlyFlagProducersWriteVfAsAFlag : Prop :=
  ∀ (i : Instr) (s t : State), exec i s = .next t → t.reg 15 ≠ s.reg 15 →
    (∃ x y, i = .addReg x y ∨ i = .subReg x y ∨ i = .shr x y ∨ i = .subnReg x y ∨ i = .shl x y) ∨
    (∃ x y n, i = .drw x y n) ∨
    (∃ y kk, i = .ldByte 15 kk ∨ i = .addByte 15 kk ∨ i = .rnd 15 kk ∨ i = .ldReg 15 y ∨ i = .orReg 15 y ∨
      i = .andReg 15 y ∨ i = .xorReg 15 y) ∨
    i = .ldVxDt 15 ∨ i = .ldVxK 15 ∨ i = .ldVxMem 15

/-- R22: only ADD I can take I to 4096 or above; and I changes only by LD I, ADD I and LD F. -/
def Obligations.OnlyAddToIndexLeavesTheAddressSpace : Prop :=
  ∀ (i : Instr) (s t : State), exec i s = .next t →
    (t.i ≠ s.i → (∃ nnn, i = .ldI nnn) ∨ (∃ x, i = .addI x) ∨ ∃ x, i = .ldF x) ∧
    (s.i.toNat < 4096 → 4096 ≤ t.i.toNat → ∃ x, i = .addI x)

/-- R24: only CALL and RET change SP, and only CALL the stack's entries (R25). -/
def Obligations.OnlyCallAndReturnMoveTheStackPointer : Prop :=
  ∀ (i : Instr) (s t : State), exec i s = .next t →
    (t.sp ≠ s.sp → (∃ nnn, i = .call nnn) ∨ i = .ret) ∧ (t.stack ≠ s.stack → ∃ nnn, i = .call nnn)

/-- R65 and the writers of R26, R27, R29, R31, R34: memory changes only by LD B and LD [I], the
framebuffer by CLS and DRW, DT by LD DT, ST by LD ST, and no instruction changes ACC, PLEN or the inputs.
-/
def Obligations.EachElementChangesOnlyByItsWriters : Prop :=
  ∀ (i : Instr) (s t : State), exec i s = .next t →
    ((∃ a, t.mem.read a ≠ s.mem.read a) → ∃ x, i = .ldB x ∨ i = .ldMemVx x) ∧
    (t.disp ≠ s.disp → i = .cls ∨ ∃ x y n, i = .drw x y n) ∧
    (t.dt ≠ s.dt → ∃ x, i = .ldDtVx x) ∧ (t.st ≠ s.st → ∃ x, i = .ldStVx x) ∧
    t.acc = s.acc ∧ t.plen = s.plen ∧ t.inputs = s.inputs ∧ t.tickNo = s.tickNo

/-- R37 (decision D21, log 4): only SKP, SKNP and LD Vx,K read KEYS, and only RND reads RAND: any other
instruction does the same whatever the tick's input is. -/
def Obligations.InputsAreReadOnlyByTheirInstructions : Prop :=
  ∀ (i : Instr) (s : State) (a b : TickInput) (rest : List TickInput),
    (((∀ x, i ≠ .skp x ∧ i ≠ .sknp x ∧ i ≠ .ldVxK x) ∨ a.keys = b.keys) ∧
      ((∀ x kk, i ≠ .rnd x kk) ∨ a.rand = b.rand)) →
    ∃ t : State, exec i { s with inputs := a :: rest } = .next { t with inputs := a :: rest } ∧
      exec i { s with inputs := b :: rest } = .next { t with inputs := b :: rest }

/-- R29, R34, R36: no instruction reads PLEN or ACC: with other values of both it does the same. -/
def Obligations.InstructionsDoNotReadPlenOrAcc : Prop :=
  ∀ (i : Instr) (s : State) (plen : Fin 3585) (acc : Fin 9),
    ∃ t : State, exec i s = .next t ∧
      exec i { s with plen := plen, acc := acc } = .next { t with plen := plen, acc := acc }

/-- R27: no instruction reads ST, so over any number of ticks two machines that differ in ST alone differ
in ST alone. -/
def Obligations.SoundTimerNeverFlowsElsewhere : Prop :=
  ∀ (k : Nat) (s : State) (st : Byte),
    ∃ (t : State) (st' : Byte), ticks k s = .next t ∧ ticks k { s with st := st } = .next { t with st := st' }

/-- R25, R36 (decision D6, log 11): no instruction reads a stale stack entry, so over any number of ticks
two machines that differ only in entries at SP or above differ only there. -/
def Obligations.StaleStackEntriesAreNeverRead : Prop :=
  ∀ (k : Nat) (s : State) (stack : Vector Word 16),
    (∀ j : Fin 16, j.val < s.sp.val → stack[j] = s.stack[j]) →
    ∃ (t : State) (stack' : Vector Word 16), ticks k s = .next t ∧
      ticks k { s with stack := stack } = .next { t with stack := stack' } ∧
      ∀ j : Fin 16, j.val < t.sp.val → stack'[j] = t.stack[j]

/-- The invariant at power-on (log 8: State.reset is the state after `init`). -/
def Obligations.PowerOnMeetsTheInvariant : Prop := State.reset.Inv

/-- R40, with R30 and R24: every tick keeps memory canonical, PC at most 0x10FE and every stack entry at
most 0x1000; and a tick that executes an instruction of such a state has PC ≤ 0xFFE. -/
def Obligations.EveryTickKeepsTheInvariant : Prop :=
  ∀ (s t : State), s.Inv → step s = .next t → t.Inv ∧ ∀ w, Fetches s w → s.pc.toNat ≤ 0xFFE

/-! ### The host's transactions -/

/-- R190, R196: `init` gives every element its power-on value, whatever the block held, and leaves the
block ready for its one load (R191; the phase is log 9's, the contract of the load decision D20). -/
def Obligations.InitSetsEveryElement : Prop :=
  ∀ (b : Block),
    b.init.phase = .ready ∧ (∀ r, b.init.core.reg r = 0#8) ∧ b.init.core.i = 0#16 ∧ b.init.core.pc = 0x200#16 ∧
    b.init.core.sp.val = 0 ∧ (∀ k : Fin 16, b.init.core.stack[k] = 0#16) ∧
    b.init.core.dt = 0#8 ∧ b.init.core.st = 0#8 ∧ b.init.core.acc.val = 0 ∧
    (∀ a, a < 80 → b.init.core.mem.read a = (font[a]?).getD 0#8) ∧
    (∀ a, 80 ≤ a → b.init.core.mem.read a = 0#8) ∧ font.length = 80 ∧
    (∀ j : Fin 256, b.init.core.disp[j] = 0#8) ∧ b.init.core.plen.val = 0 ∧ b.init.core.faultCode = 0#3

/-- R191, R192: an accepted load, the first after `init` and before any tick, copies the bytes from 0x200
on and sets PLEN, and nothing else; a length of 0 or above 3584 is an error that changes nothing; any
other load is refused (decision D20, log 9). -/
def Obligations.LoadCopiesTheProgramOnce : Prop :=
  ∀ (b : Block) (buffer : List Byte),
    (b.phase = .ready → 0 < buffer.length → buffer.length ≤ 3584 →
      ∃ c, b.load buffer = .ok (.ok, c) ∧ c.phase = .loaded ∧ c.core.plen.val = buffer.length ∧
        (∀ k v, buffer[k]? = some v → c.core.mem.read (0x200 + k) = v) ∧
        (∀ a, a < 0x200 ∨ 0x200 + buffer.length ≤ a → c.core.mem.read a = b.core.mem.read a) ∧
        Frame [.mem, .plen] b.core c.core) ∧
    (buffer.length = 0 ∨ 3584 < buffer.length → b.load buffer = .ok (.error, b)) ∧
    (0 < buffer.length → buffer.length ≤ 3584 → b.phase = .loaded ∨ b.phase = .ticked →
      b.load buffer = .error .loadOutsideContract) ∧
    (0 < buffer.length → buffer.length ≤ 3584 → b.phase = .off → b.load buffer = .error .notInitialised)

/-- R193, R194 (decision D15, log 17): the in-place restart clears registers, stack, display, timers and
phase ACC and returns PC to 0x200, keeps memory and PLEN, and is refused while FAULT ≠ 0. That it leaves
the block's phase, and so is no occasion for a second load, is the model's choice (log 9). -/
def Obligations.ResetRestartsInPlace : Prop :=
  ∀ (b : Block), b.phase ≠ .off →
    (b.core.fault = none → ∃ c, b.reset = .ok c ∧ c.phase = b.phase ∧
      (∀ r, c.core.reg r = 0#8) ∧ c.core.i = 0#16 ∧ c.core.sp.val = 0 ∧
      (∀ k : Fin 16, c.core.stack[k] = 0#16) ∧ (∀ j : Fin 256, c.core.disp[j] = 0#8) ∧
      c.core.dt = 0#8 ∧ c.core.st = 0#8 ∧ c.core.acc.val = 0 ∧ c.core.pc = 0x200#16 ∧
      Frame [.v, .i, .pc, .sp, .stack, .disp, .dt, .st, .acc] b.core c.core) ∧
    (b.core.fault ≠ none → b.reset = .error .resetWhileFaulted)

/-- R148: the pixel query answers DISP[p / 8][7 - (p % 8)] for p in 0..2047 and is refused outside
(decision D25, log 9). -/
def Obligations.PixelQueryReadsThePackedBit : Prop :=
  ∀ (b : Block) (p : Nat), b.phase ≠ .off →
    (∀ h : p < 2048, b.pixel p = .ok ((b.core.disp[p / 8]'(by simp only [Config.dispBytes]; omega)).getLsbD (7 - p % 8))) ∧
    (2048 ≤ p → b.pixel p = .error .pixelIndexOutOfRange)

/-- R33, R37, R38 (decisions D1, log 9, and D19, log 21): the `tick` transaction is one step with its KEYS
and RAND as the tick's input, and closes the time for a load (R191; D20, log 9). It outputs Faulted(code)
and Ended for a stopped machine, which keeps its state; otherwise Faulted(code) where the tick raised a
fault and Running(PC) with the new PC where it did not. That it spends the one input is log 4's choice. -/
def Obligations.TickReportsItsStatus : Prop :=
  ∀ (b : Block) (input : TickInput), b.phase ≠ .off →
    ∃ out c, b.tick input = .ok (out, c) ∧ c.phase = .ticked ∧
      step { b.core with inputs := input :: b.core.inputs } = .next c.core ∧ c.core.inputs = b.core.inputs ∧
      (∀ f, b.core.fault = some f → out = .faulted f ∧ Frame [.env] b.core c.core) ∧
      (b.core.fault = none → 0x200 + b.core.plen.val ≤ b.core.pc.toNat →
        out = .ended ∧ Frame [.env] b.core c.core) ∧
      (b.core.fault = none → b.core.pc.toNat < 0x200 + b.core.plen.val →
        (∀ f, c.core.fault = some f → out = .faulted f) ∧ (c.core.fault = none → out = .running c.core.pc))
end

