-- ==== Sys2Proof/Laws/Decode.lean ====
section
/-! SUPPORT. The decoder by top nibble, and the opcode table's masks as numbers (30_encoding.md R74,
R80). -/

namespace Sys2Proof

/-- The sixteen arms of the top-level dispatch (R74). -/
theorem decodeWord_cases (w : Word) :
    (opOf w = 0x0#4 ∧ decodeWord w = decodeGroup0 w) ∨
    (opOf w = 0x1#4 ∧ decodeWord w = some (.jp (nnnOf w))) ∨
    (opOf w = 0x2#4 ∧ decodeWord w = some (.call (nnnOf w))) ∨
    (opOf w = 0x3#4 ∧ decodeWord w = some (.seByte (xOf w) (kkOf w))) ∨
    (opOf w = 0x4#4 ∧ decodeWord w = some (.sneByte (xOf w) (kkOf w))) ∨
    (opOf w = 0x5#4 ∧ decodeWord w = some (.seReg (xOf w) (yOf w) (nOf w))) ∨
    (opOf w = 0x6#4 ∧ decodeWord w = some (.ldByte (xOf w) (kkOf w))) ∨
    (opOf w = 0x7#4 ∧ decodeWord w = some (.addByte (xOf w) (kkOf w))) ∨
    (opOf w = 0x8#4 ∧ decodeWord w = decodeGroup8 (xOf w) (yOf w) (nOf w)) ∨
    (opOf w = 0x9#4 ∧ decodeWord w = some (.sneReg (xOf w) (yOf w) (nOf w))) ∨
    (opOf w = 0xA#4 ∧ decodeWord w = some (.ldI (nnnOf w))) ∨
    (opOf w = 0xB#4 ∧ decodeWord w = some (.jpV0 (nnnOf w))) ∨
    (opOf w = 0xC#4 ∧ decodeWord w = some (.rnd (xOf w) (kkOf w))) ∨
    (opOf w = 0xD#4 ∧ decodeWord w = some (.drw (xOf w) (yOf w) (nOf w))) ∨
    (opOf w = 0xE#4 ∧ decodeWord w = decodeGroupE (xOf w) (kkOf w)) ∨
    (opOf w = 0xF#4 ∧ decodeWord w = decodeGroupF (xOf w) (kkOf w)) := by
  have hop : ∀ op : Nibble, op = 0#4 ∨ op = 1#4 ∨ op = 2#4 ∨ op = 3#4 ∨ op = 4#4 ∨ op = 5#4 ∨ op = 6#4 ∨
      op = 7#4 ∨ op = 8#4 ∨ op = 9#4 ∨ op = 0xA#4 ∨ op = 0xB#4 ∨ op = 0xC#4 ∨ op = 0xD#4 ∨ op = 0xE#4 ∨
      op = 0xF#4 := by decide
  rcases hop (opOf w) with h | h | h | h | h | h | h | h | h | h | h | h | h | h | h | h <;>
    rw [decodeWord, h] <;>
    simp only [true_and, BitVec.reduceEq, false_and, false_or, or_false, if_true, if_false]

/-! ### Masks as numbers -/

theorem toNat_and_F000 (w : Word) : (w &&& 0xF000#16).toNat = w.toNat / 4096 * 4096 := by
  have h : w &&& 0xF000#16 = w >>> 12 <<< 12 := by
    apply BitVec.eq_of_getLsbD_eq
    intro i hi
    interval_cases i <;> simp
  have := w.isLt
  rw [h]
  simp only [BitVec.toNat_shiftLeft, BitVec.toNat_ushiftRight, Nat.shiftRight_eq_div_pow, Nat.shiftLeft_eq]
  omega

theorem toNat_and_000F (w : Word) : (w &&& 0x000F#16).toNat = w.toNat % 16 :=
  (BitVec.toNat_and ..).trans (Nat.and_two_pow_sub_one_eq_mod w.toNat 4)

theorem toNat_and_00FF (w : Word) : (w &&& 0x00FF#16).toNat = w.toNat % 256 :=
  (BitVec.toNat_and ..).trans (Nat.and_two_pow_sub_one_eq_mod w.toNat 8)

theorem toNat_and_F00F (w : Word) : (w &&& 0xF00F#16).toNat = w.toNat / 4096 * 4096 + w.toNat % 16 := by
  have h : w &&& 0xF00F#16 = (w &&& 0xF000#16) + (w &&& 0x000F#16) := by
    rw [BitVec.add_eq_or_of_and_eq_zero] <;>
      (apply BitVec.eq_of_getLsbD_eq; intro i hi; interval_cases i <;> simp)
  have := w.isLt
  rw [h, BitVec.toNat_add, toNat_and_F000, toNat_and_000F]
  omega

theorem toNat_and_F0FF (w : Word) : (w &&& 0xF0FF#16).toNat = w.toNat / 4096 * 4096 + w.toNat % 256 := by
  have h : w &&& 0xF0FF#16 = (w &&& 0xF000#16) + (w &&& 0x00FF#16) := by
    rw [BitVec.add_eq_or_of_and_eq_zero] <;>
      (apply BitVec.eq_of_getLsbD_eq; intro i hi; interval_cases i <;> simp)
  have := w.isLt
  rw [h, BitVec.toNat_add, toNat_and_F000, toNat_and_00FF]
  omega

/-- A row covers a word when the masked word is the row's number. -/
theorem covers_iff (r : OpcodeRow) (w : Word) : r.covers w = true ↔ (w &&& r.mask).toNat = r.bits.toNat := by
  rw [OpcodeRow.covers, beq_iff_eq, BitVec.toNat_inj]

/-- Two rows that cover one word agree on the bits both fix. -/
theorem covers_agree {r q : OpcodeRow} {w : Word} (hr : r.covers w = true) (hq : q.covers w = true) :
    (r.bits ^^^ q.bits) &&& (r.mask &&& q.mask) = 0#16 := by
  simp only [OpcodeRow.covers, beq_iff_eq] at hr hq
  rw [← hr, ← hq]
  apply BitVec.eq_of_getLsbD_eq
  intro i hi
  simp only [BitVec.getLsbD_and, BitVec.getLsbD_xor, BitVec.getLsbD_zero]
  cases w.getLsbD i <;> cases r.mask.getLsbD i <;> cases q.mask.getLsbD i <;> rfl

end Sys2Proof
end

