-- ==== Sys2Proof/Laws/State.lean ====
section
/-! SUPPORT. One lemma per field per update of State, each true by definition. -/

namespace Sys2Proof.Machine

variable (s : State)

/-! `setReg` -/

@[simp] theorem State.setReg_v (x : Reg) (b : Byte) : (s.setReg x b).v = s.v.set x.val b x.isLt := rfl
@[simp] theorem State.setReg_i (x : Reg) (b : Byte) : (s.setReg x b).i = s.i := rfl
@[simp] theorem State.setReg_pc (x : Reg) (b : Byte) : (s.setReg x b).pc = s.pc := rfl
@[simp] theorem State.setReg_sp (x : Reg) (b : Byte) : (s.setReg x b).sp = s.sp := rfl
@[simp] theorem State.setReg_stack (x : Reg) (b : Byte) : (s.setReg x b).stack = s.stack := rfl
@[simp] theorem State.setReg_dt (x : Reg) (b : Byte) : (s.setReg x b).dt = s.dt := rfl
@[simp] theorem State.setReg_st (x : Reg) (b : Byte) : (s.setReg x b).st = s.st := rfl
@[simp] theorem State.setReg_acc (x : Reg) (b : Byte) : (s.setReg x b).acc = s.acc := rfl
@[simp] theorem State.setReg_mem (x : Reg) (b : Byte) : (s.setReg x b).mem = s.mem := rfl
@[simp] theorem State.setReg_disp (x : Reg) (b : Byte) : (s.setReg x b).disp = s.disp := rfl
@[simp] theorem State.setReg_plen (x : Reg) (b : Byte) : (s.setReg x b).plen = s.plen := rfl
@[simp] theorem State.setReg_fault (x : Reg) (b : Byte) : (s.setReg x b).fault = s.fault := rfl
@[simp] theorem State.setReg_inputs (x : Reg) (b : Byte) : (s.setReg x b).inputs = s.inputs := rfl
@[simp] theorem State.setReg_tickNo (x : Reg) (b : Byte) : (s.setReg x b).tickNo = s.tickNo := rfl

/-! `setRegs` -/

@[simp] theorem State.setRegs_v (w : Vector Byte Config.numV) : (s.setRegs w).v = w := rfl
@[simp] theorem State.setRegs_i (w : Vector Byte Config.numV) : (s.setRegs w).i = s.i := rfl
@[simp] theorem State.setRegs_pc (w : Vector Byte Config.numV) : (s.setRegs w).pc = s.pc := rfl
@[simp] theorem State.setRegs_sp (w : Vector Byte Config.numV) : (s.setRegs w).sp = s.sp := rfl
@[simp] theorem State.setRegs_stack (w : Vector Byte Config.numV) : (s.setRegs w).stack = s.stack := rfl
@[simp] theorem State.setRegs_dt (w : Vector Byte Config.numV) : (s.setRegs w).dt = s.dt := rfl
@[simp] theorem State.setRegs_st (w : Vector Byte Config.numV) : (s.setRegs w).st = s.st := rfl
@[simp] theorem State.setRegs_acc (w : Vector Byte Config.numV) : (s.setRegs w).acc = s.acc := rfl
@[simp] theorem State.setRegs_mem (w : Vector Byte Config.numV) : (s.setRegs w).mem = s.mem := rfl
@[simp] theorem State.setRegs_disp (w : Vector Byte Config.numV) : (s.setRegs w).disp = s.disp := rfl
@[simp] theorem State.setRegs_plen (w : Vector Byte Config.numV) : (s.setRegs w).plen = s.plen := rfl
@[simp] theorem State.setRegs_fault (w : Vector Byte Config.numV) : (s.setRegs w).fault = s.fault := rfl
@[simp] theorem State.setRegs_inputs (w : Vector Byte Config.numV) : (s.setRegs w).inputs = s.inputs := rfl
@[simp] theorem State.setRegs_tickNo (w : Vector Byte Config.numV) : (s.setRegs w).tickNo = s.tickNo := rfl

/-! `setIndex` -/

@[simp] theorem State.setIndex_v (w : Word) : (s.setIndex w).v = s.v := rfl
@[simp] theorem State.setIndex_i (w : Word) : (s.setIndex w).i = w := rfl
@[simp] theorem State.setIndex_pc (w : Word) : (s.setIndex w).pc = s.pc := rfl
@[simp] theorem State.setIndex_sp (w : Word) : (s.setIndex w).sp = s.sp := rfl
@[simp] theorem State.setIndex_stack (w : Word) : (s.setIndex w).stack = s.stack := rfl
@[simp] theorem State.setIndex_dt (w : Word) : (s.setIndex w).dt = s.dt := rfl
@[simp] theorem State.setIndex_st (w : Word) : (s.setIndex w).st = s.st := rfl
@[simp] theorem State.setIndex_acc (w : Word) : (s.setIndex w).acc = s.acc := rfl
@[simp] theorem State.setIndex_mem (w : Word) : (s.setIndex w).mem = s.mem := rfl
@[simp] theorem State.setIndex_disp (w : Word) : (s.setIndex w).disp = s.disp := rfl
@[simp] theorem State.setIndex_plen (w : Word) : (s.setIndex w).plen = s.plen := rfl
@[simp] theorem State.setIndex_fault (w : Word) : (s.setIndex w).fault = s.fault := rfl
@[simp] theorem State.setIndex_inputs (w : Word) : (s.setIndex w).inputs = s.inputs := rfl
@[simp] theorem State.setIndex_tickNo (w : Word) : (s.setIndex w).tickNo = s.tickNo := rfl

/-! `jump` -/

@[simp] theorem State.jump_v (w : Word) : (s.jump w).v = s.v := rfl
@[simp] theorem State.jump_i (w : Word) : (s.jump w).i = s.i := rfl
@[simp] theorem State.jump_pc (w : Word) : (s.jump w).pc = w := rfl
@[simp] theorem State.jump_sp (w : Word) : (s.jump w).sp = s.sp := rfl
@[simp] theorem State.jump_stack (w : Word) : (s.jump w).stack = s.stack := rfl
@[simp] theorem State.jump_dt (w : Word) : (s.jump w).dt = s.dt := rfl
@[simp] theorem State.jump_st (w : Word) : (s.jump w).st = s.st := rfl
@[simp] theorem State.jump_acc (w : Word) : (s.jump w).acc = s.acc := rfl
@[simp] theorem State.jump_mem (w : Word) : (s.jump w).mem = s.mem := rfl
@[simp] theorem State.jump_disp (w : Word) : (s.jump w).disp = s.disp := rfl
@[simp] theorem State.jump_plen (w : Word) : (s.jump w).plen = s.plen := rfl
@[simp] theorem State.jump_fault (w : Word) : (s.jump w).fault = s.fault := rfl
@[simp] theorem State.jump_inputs (w : Word) : (s.jump w).inputs = s.inputs := rfl
@[simp] theorem State.jump_tickNo (w : Word) : (s.jump w).tickNo = s.tickNo := rfl

/-! `advance` -/

@[simp] theorem State.advance_v (n : Word) : (s.advance n).v = s.v := rfl
@[simp] theorem State.advance_i (n : Word) : (s.advance n).i = s.i := rfl
@[simp] theorem State.advance_pc (n : Word) : (s.advance n).pc = s.pc + n := rfl
@[simp] theorem State.advance_sp (n : Word) : (s.advance n).sp = s.sp := rfl
@[simp] theorem State.advance_stack (n : Word) : (s.advance n).stack = s.stack := rfl
@[simp] theorem State.advance_dt (n : Word) : (s.advance n).dt = s.dt := rfl
@[simp] theorem State.advance_st (n : Word) : (s.advance n).st = s.st := rfl
@[simp] theorem State.advance_acc (n : Word) : (s.advance n).acc = s.acc := rfl
@[simp] theorem State.advance_mem (n : Word) : (s.advance n).mem = s.mem := rfl
@[simp] theorem State.advance_disp (n : Word) : (s.advance n).disp = s.disp := rfl
@[simp] theorem State.advance_plen (n : Word) : (s.advance n).plen = s.plen := rfl
@[simp] theorem State.advance_fault (n : Word) : (s.advance n).fault = s.fault := rfl
@[simp] theorem State.advance_inputs (n : Word) : (s.advance n).inputs = s.inputs := rfl
@[simp] theorem State.advance_tickNo (n : Word) : (s.advance n).tickNo = s.tickNo := rfl

/-! `setDt` -/

@[simp] theorem State.setDt_v (b : Byte) : (s.setDt b).v = s.v := rfl
@[simp] theorem State.setDt_i (b : Byte) : (s.setDt b).i = s.i := rfl
@[simp] theorem State.setDt_pc (b : Byte) : (s.setDt b).pc = s.pc := rfl
@[simp] theorem State.setDt_sp (b : Byte) : (s.setDt b).sp = s.sp := rfl
@[simp] theorem State.setDt_stack (b : Byte) : (s.setDt b).stack = s.stack := rfl
@[simp] theorem State.setDt_dt (b : Byte) : (s.setDt b).dt = b := rfl
@[simp] theorem State.setDt_st (b : Byte) : (s.setDt b).st = s.st := rfl
@[simp] theorem State.setDt_acc (b : Byte) : (s.setDt b).acc = s.acc := rfl
@[simp] theorem State.setDt_mem (b : Byte) : (s.setDt b).mem = s.mem := rfl
@[simp] theorem State.setDt_disp (b : Byte) : (s.setDt b).disp = s.disp := rfl
@[simp] theorem State.setDt_plen (b : Byte) : (s.setDt b).plen = s.plen := rfl
@[simp] theorem State.setDt_fault (b : Byte) : (s.setDt b).fault = s.fault := rfl
@[simp] theorem State.setDt_inputs (b : Byte) : (s.setDt b).inputs = s.inputs := rfl
@[simp] theorem State.setDt_tickNo (b : Byte) : (s.setDt b).tickNo = s.tickNo := rfl

/-! `setSt` -/

@[simp] theorem State.setSt_v (b : Byte) : (s.setSt b).v = s.v := rfl
@[simp] theorem State.setSt_i (b : Byte) : (s.setSt b).i = s.i := rfl
@[simp] theorem State.setSt_pc (b : Byte) : (s.setSt b).pc = s.pc := rfl
@[simp] theorem State.setSt_sp (b : Byte) : (s.setSt b).sp = s.sp := rfl
@[simp] theorem State.setSt_stack (b : Byte) : (s.setSt b).stack = s.stack := rfl
@[simp] theorem State.setSt_dt (b : Byte) : (s.setSt b).dt = s.dt := rfl
@[simp] theorem State.setSt_st (b : Byte) : (s.setSt b).st = b := rfl
@[simp] theorem State.setSt_acc (b : Byte) : (s.setSt b).acc = s.acc := rfl
@[simp] theorem State.setSt_mem (b : Byte) : (s.setSt b).mem = s.mem := rfl
@[simp] theorem State.setSt_disp (b : Byte) : (s.setSt b).disp = s.disp := rfl
@[simp] theorem State.setSt_plen (b : Byte) : (s.setSt b).plen = s.plen := rfl
@[simp] theorem State.setSt_fault (b : Byte) : (s.setSt b).fault = s.fault := rfl
@[simp] theorem State.setSt_inputs (b : Byte) : (s.setSt b).inputs = s.inputs := rfl
@[simp] theorem State.setSt_tickNo (b : Byte) : (s.setSt b).tickNo = s.tickNo := rfl

/-! `setMem` -/

@[simp] theorem State.setMem_v (m : Memory) : (s.setMem m).v = s.v := rfl
@[simp] theorem State.setMem_i (m : Memory) : (s.setMem m).i = s.i := rfl
@[simp] theorem State.setMem_pc (m : Memory) : (s.setMem m).pc = s.pc := rfl
@[simp] theorem State.setMem_sp (m : Memory) : (s.setMem m).sp = s.sp := rfl
@[simp] theorem State.setMem_stack (m : Memory) : (s.setMem m).stack = s.stack := rfl
@[simp] theorem State.setMem_dt (m : Memory) : (s.setMem m).dt = s.dt := rfl
@[simp] theorem State.setMem_st (m : Memory) : (s.setMem m).st = s.st := rfl
@[simp] theorem State.setMem_acc (m : Memory) : (s.setMem m).acc = s.acc := rfl
@[simp] theorem State.setMem_mem (m : Memory) : (s.setMem m).mem = m := rfl
@[simp] theorem State.setMem_disp (m : Memory) : (s.setMem m).disp = s.disp := rfl
@[simp] theorem State.setMem_plen (m : Memory) : (s.setMem m).plen = s.plen := rfl
@[simp] theorem State.setMem_fault (m : Memory) : (s.setMem m).fault = s.fault := rfl
@[simp] theorem State.setMem_inputs (m : Memory) : (s.setMem m).inputs = s.inputs := rfl
@[simp] theorem State.setMem_tickNo (m : Memory) : (s.setMem m).tickNo = s.tickNo := rfl

/-! `setDisp` -/

@[simp] theorem State.setDisp_v (d : Display) : (s.setDisp d).v = s.v := rfl
@[simp] theorem State.setDisp_i (d : Display) : (s.setDisp d).i = s.i := rfl
@[simp] theorem State.setDisp_pc (d : Display) : (s.setDisp d).pc = s.pc := rfl
@[simp] theorem State.setDisp_sp (d : Display) : (s.setDisp d).sp = s.sp := rfl
@[simp] theorem State.setDisp_stack (d : Display) : (s.setDisp d).stack = s.stack := rfl
@[simp] theorem State.setDisp_dt (d : Display) : (s.setDisp d).dt = s.dt := rfl
@[simp] theorem State.setDisp_st (d : Display) : (s.setDisp d).st = s.st := rfl
@[simp] theorem State.setDisp_acc (d : Display) : (s.setDisp d).acc = s.acc := rfl
@[simp] theorem State.setDisp_mem (d : Display) : (s.setDisp d).mem = s.mem := rfl
@[simp] theorem State.setDisp_disp (d : Display) : (s.setDisp d).disp = d := rfl
@[simp] theorem State.setDisp_plen (d : Display) : (s.setDisp d).plen = s.plen := rfl
@[simp] theorem State.setDisp_fault (d : Display) : (s.setDisp d).fault = s.fault := rfl
@[simp] theorem State.setDisp_inputs (d : Display) : (s.setDisp d).inputs = s.inputs := rfl
@[simp] theorem State.setDisp_tickNo (d : Display) : (s.setDisp d).tickNo = s.tickNo := rfl

/-! `setStack` -/

@[simp] theorem State.setStack_v (p : Fin (Config.stackDepth + 1)) (k : Vector Word Config.stackDepth) : (s.setStack p k).v = s.v := rfl
@[simp] theorem State.setStack_i (p : Fin (Config.stackDepth + 1)) (k : Vector Word Config.stackDepth) : (s.setStack p k).i = s.i := rfl
@[simp] theorem State.setStack_pc (p : Fin (Config.stackDepth + 1)) (k : Vector Word Config.stackDepth) : (s.setStack p k).pc = s.pc := rfl
@[simp] theorem State.setStack_sp (p : Fin (Config.stackDepth + 1)) (k : Vector Word Config.stackDepth) : (s.setStack p k).sp = p := rfl
@[simp] theorem State.setStack_stack (p : Fin (Config.stackDepth + 1)) (k : Vector Word Config.stackDepth) : (s.setStack p k).stack = k := rfl
@[simp] theorem State.setStack_dt (p : Fin (Config.stackDepth + 1)) (k : Vector Word Config.stackDepth) : (s.setStack p k).dt = s.dt := rfl
@[simp] theorem State.setStack_st (p : Fin (Config.stackDepth + 1)) (k : Vector Word Config.stackDepth) : (s.setStack p k).st = s.st := rfl
@[simp] theorem State.setStack_acc (p : Fin (Config.stackDepth + 1)) (k : Vector Word Config.stackDepth) : (s.setStack p k).acc = s.acc := rfl
@[simp] theorem State.setStack_mem (p : Fin (Config.stackDepth + 1)) (k : Vector Word Config.stackDepth) : (s.setStack p k).mem = s.mem := rfl
@[simp] theorem State.setStack_disp (p : Fin (Config.stackDepth + 1)) (k : Vector Word Config.stackDepth) : (s.setStack p k).disp = s.disp := rfl
@[simp] theorem State.setStack_plen (p : Fin (Config.stackDepth + 1)) (k : Vector Word Config.stackDepth) : (s.setStack p k).plen = s.plen := rfl
@[simp] theorem State.setStack_fault (p : Fin (Config.stackDepth + 1)) (k : Vector Word Config.stackDepth) : (s.setStack p k).fault = s.fault := rfl
@[simp] theorem State.setStack_inputs (p : Fin (Config.stackDepth + 1)) (k : Vector Word Config.stackDepth) : (s.setStack p k).inputs = s.inputs := rfl
@[simp] theorem State.setStack_tickNo (p : Fin (Config.stackDepth + 1)) (k : Vector Word Config.stackDepth) : (s.setStack p k).tickNo = s.tickNo := rfl

/-! `setTimers` -/

@[simp] theorem State.setTimers_v (a : Fin Config.timerDivide) (d e : Byte) : (s.setTimers a d e).v = s.v := rfl
@[simp] theorem State.setTimers_i (a : Fin Config.timerDivide) (d e : Byte) : (s.setTimers a d e).i = s.i := rfl
@[simp] theorem State.setTimers_pc (a : Fin Config.timerDivide) (d e : Byte) : (s.setTimers a d e).pc = s.pc := rfl
@[simp] theorem State.setTimers_sp (a : Fin Config.timerDivide) (d e : Byte) : (s.setTimers a d e).sp = s.sp := rfl
@[simp] theorem State.setTimers_stack (a : Fin Config.timerDivide) (d e : Byte) : (s.setTimers a d e).stack = s.stack := rfl
@[simp] theorem State.setTimers_dt (a : Fin Config.timerDivide) (d e : Byte) : (s.setTimers a d e).dt = d := rfl
@[simp] theorem State.setTimers_st (a : Fin Config.timerDivide) (d e : Byte) : (s.setTimers a d e).st = e := rfl
@[simp] theorem State.setTimers_acc (a : Fin Config.timerDivide) (d e : Byte) : (s.setTimers a d e).acc = a := rfl
@[simp] theorem State.setTimers_mem (a : Fin Config.timerDivide) (d e : Byte) : (s.setTimers a d e).mem = s.mem := rfl
@[simp] theorem State.setTimers_disp (a : Fin Config.timerDivide) (d e : Byte) : (s.setTimers a d e).disp = s.disp := rfl
@[simp] theorem State.setTimers_plen (a : Fin Config.timerDivide) (d e : Byte) : (s.setTimers a d e).plen = s.plen := rfl
@[simp] theorem State.setTimers_fault (a : Fin Config.timerDivide) (d e : Byte) : (s.setTimers a d e).fault = s.fault := rfl
@[simp] theorem State.setTimers_inputs (a : Fin Config.timerDivide) (d e : Byte) : (s.setTimers a d e).inputs = s.inputs := rfl
@[simp] theorem State.setTimers_tickNo (a : Fin Config.timerDivide) (d e : Byte) : (s.setTimers a d e).tickNo = s.tickNo := rfl

/-! `raise` -/

@[simp] theorem State.raise_v (f : Fault) : (s.raise f).v = s.v := rfl
@[simp] theorem State.raise_i (f : Fault) : (s.raise f).i = s.i := rfl
@[simp] theorem State.raise_pc (f : Fault) : (s.raise f).pc = s.pc := rfl
@[simp] theorem State.raise_sp (f : Fault) : (s.raise f).sp = s.sp := rfl
@[simp] theorem State.raise_stack (f : Fault) : (s.raise f).stack = s.stack := rfl
@[simp] theorem State.raise_dt (f : Fault) : (s.raise f).dt = s.dt := rfl
@[simp] theorem State.raise_st (f : Fault) : (s.raise f).st = s.st := rfl
@[simp] theorem State.raise_acc (f : Fault) : (s.raise f).acc = s.acc := rfl
@[simp] theorem State.raise_mem (f : Fault) : (s.raise f).mem = s.mem := rfl
@[simp] theorem State.raise_disp (f : Fault) : (s.raise f).disp = s.disp := rfl
@[simp] theorem State.raise_plen (f : Fault) : (s.raise f).plen = s.plen := rfl
@[simp] theorem State.raise_fault (f : Fault) : (s.raise f).fault = some f := rfl
@[simp] theorem State.raise_inputs (f : Fault) : (s.raise f).inputs = s.inputs := rfl
@[simp] theorem State.raise_tickNo (f : Fault) : (s.raise f).tickNo = s.tickNo := rfl

/-! `setRegFlag` -/

@[simp] theorem State.setRegFlag_v (x : Reg) (b e : Byte) : (s.setRegFlag x b e).v = (s.v.set x.val b x.isLt).set flagReg.val e flagReg.isLt := rfl
@[simp] theorem State.setRegFlag_i (x : Reg) (b e : Byte) : (s.setRegFlag x b e).i = s.i := rfl
@[simp] theorem State.setRegFlag_pc (x : Reg) (b e : Byte) : (s.setRegFlag x b e).pc = s.pc := rfl
@[simp] theorem State.setRegFlag_sp (x : Reg) (b e : Byte) : (s.setRegFlag x b e).sp = s.sp := rfl
@[simp] theorem State.setRegFlag_stack (x : Reg) (b e : Byte) : (s.setRegFlag x b e).stack = s.stack := rfl
@[simp] theorem State.setRegFlag_dt (x : Reg) (b e : Byte) : (s.setRegFlag x b e).dt = s.dt := rfl
@[simp] theorem State.setRegFlag_st (x : Reg) (b e : Byte) : (s.setRegFlag x b e).st = s.st := rfl
@[simp] theorem State.setRegFlag_acc (x : Reg) (b e : Byte) : (s.setRegFlag x b e).acc = s.acc := rfl
@[simp] theorem State.setRegFlag_mem (x : Reg) (b e : Byte) : (s.setRegFlag x b e).mem = s.mem := rfl
@[simp] theorem State.setRegFlag_disp (x : Reg) (b e : Byte) : (s.setRegFlag x b e).disp = s.disp := rfl
@[simp] theorem State.setRegFlag_plen (x : Reg) (b e : Byte) : (s.setRegFlag x b e).plen = s.plen := rfl
@[simp] theorem State.setRegFlag_fault (x : Reg) (b e : Byte) : (s.setRegFlag x b e).fault = s.fault := rfl
@[simp] theorem State.setRegFlag_inputs (x : Reg) (b e : Byte) : (s.setRegFlag x b e).inputs = s.inputs := rfl
@[simp] theorem State.setRegFlag_tickNo (x : Reg) (b e : Byte) : (s.setRegFlag x b e).tickNo = s.tickNo := rfl

/-! `loadFirstRegs` -/

@[simp] theorem State.loadFirstRegs_v (l : List Byte) : (s.loadFirstRegs l).v = Vector.ofFn fun r : Fin Config.numV => (l[r.val]?).getD (s.reg r) := by simp only [State.loadFirstRegs, State.setRegs_v]
@[simp] theorem State.loadFirstRegs_i (l : List Byte) : (s.loadFirstRegs l).i = s.i := by simp only [State.loadFirstRegs, State.setRegs_i]
@[simp] theorem State.loadFirstRegs_pc (l : List Byte) : (s.loadFirstRegs l).pc = s.pc := by simp only [State.loadFirstRegs, State.setRegs_pc]
@[simp] theorem State.loadFirstRegs_sp (l : List Byte) : (s.loadFirstRegs l).sp = s.sp := by simp only [State.loadFirstRegs, State.setRegs_sp]
@[simp] theorem State.loadFirstRegs_stack (l : List Byte) : (s.loadFirstRegs l).stack = s.stack := by simp only [State.loadFirstRegs, State.setRegs_stack]
@[simp] theorem State.loadFirstRegs_dt (l : List Byte) : (s.loadFirstRegs l).dt = s.dt := by simp only [State.loadFirstRegs, State.setRegs_dt]
@[simp] theorem State.loadFirstRegs_st (l : List Byte) : (s.loadFirstRegs l).st = s.st := by simp only [State.loadFirstRegs, State.setRegs_st]
@[simp] theorem State.loadFirstRegs_acc (l : List Byte) : (s.loadFirstRegs l).acc = s.acc := by simp only [State.loadFirstRegs, State.setRegs_acc]
@[simp] theorem State.loadFirstRegs_mem (l : List Byte) : (s.loadFirstRegs l).mem = s.mem := by simp only [State.loadFirstRegs, State.setRegs_mem]
@[simp] theorem State.loadFirstRegs_disp (l : List Byte) : (s.loadFirstRegs l).disp = s.disp := by simp only [State.loadFirstRegs, State.setRegs_disp]
@[simp] theorem State.loadFirstRegs_plen (l : List Byte) : (s.loadFirstRegs l).plen = s.plen := by simp only [State.loadFirstRegs, State.setRegs_plen]
@[simp] theorem State.loadFirstRegs_fault (l : List Byte) : (s.loadFirstRegs l).fault = s.fault := by simp only [State.loadFirstRegs, State.setRegs_fault]
@[simp] theorem State.loadFirstRegs_inputs (l : List Byte) : (s.loadFirstRegs l).inputs = s.inputs := by simp only [State.loadFirstRegs, State.setRegs_inputs]
@[simp] theorem State.loadFirstRegs_tickNo (l : List Byte) : (s.loadFirstRegs l).tickNo = s.tickNo := by simp only [State.loadFirstRegs, State.setRegs_tickNo]

/-! `restart` -/

@[simp] theorem State.restart_v : s.restart.v = Vector.replicate Config.numV 0#8 := rfl
@[simp] theorem State.restart_i : s.restart.i = 0#16 := rfl
@[simp] theorem State.restart_pc : s.restart.pc = BitVec.ofNat 16 Config.progBase := rfl
@[simp] theorem State.restart_sp : s.restart.sp = 0 := rfl
@[simp] theorem State.restart_stack : s.restart.stack = Vector.replicate Config.stackDepth 0#16 := rfl
@[simp] theorem State.restart_dt : s.restart.dt = 0#8 := rfl
@[simp] theorem State.restart_st : s.restart.st = 0#8 := rfl
@[simp] theorem State.restart_acc : s.restart.acc = 0 := rfl
@[simp] theorem State.restart_mem : s.restart.mem = s.mem := rfl
@[simp] theorem State.restart_disp : s.restart.disp = Vector.replicate Config.dispBytes 0#8 := rfl
@[simp] theorem State.restart_plen : s.restart.plen = s.plen := rfl
@[simp] theorem State.restart_fault : s.restart.fault = s.fault := rfl
@[simp] theorem State.restart_inputs : s.restart.inputs = s.inputs := rfl
@[simp] theorem State.restart_tickNo : s.restart.tickNo = s.tickNo := rfl

/-! `withProgram` -/

@[simp] theorem State.withProgram_v (l : List Byte) : (s.withProgram l).v = s.v := rfl
@[simp] theorem State.withProgram_i (l : List Byte) : (s.withProgram l).i = s.i := rfl
@[simp] theorem State.withProgram_pc (l : List Byte) : (s.withProgram l).pc = s.pc := rfl
@[simp] theorem State.withProgram_sp (l : List Byte) : (s.withProgram l).sp = s.sp := rfl
@[simp] theorem State.withProgram_stack (l : List Byte) : (s.withProgram l).stack = s.stack := rfl
@[simp] theorem State.withProgram_dt (l : List Byte) : (s.withProgram l).dt = s.dt := rfl
@[simp] theorem State.withProgram_st (l : List Byte) : (s.withProgram l).st = s.st := rfl
@[simp] theorem State.withProgram_acc (l : List Byte) : (s.withProgram l).acc = s.acc := rfl
@[simp] theorem State.withProgram_mem (l : List Byte) : (s.withProgram l).mem = s.mem.writeSpan Config.progBase l := rfl
@[simp] theorem State.withProgram_disp (l : List Byte) : (s.withProgram l).disp = s.disp := rfl
@[simp] theorem State.withProgram_plen (l : List Byte) : (s.withProgram l).plen = Fin.ofNat _ l.length := rfl
@[simp] theorem State.withProgram_fault (l : List Byte) : (s.withProgram l).fault = s.fault := rfl
@[simp] theorem State.withProgram_inputs (l : List Byte) : (s.withProgram l).inputs = s.inputs := rfl
@[simp] theorem State.withProgram_tickNo (l : List Byte) : (s.withProgram l).tickNo = s.tickNo := rfl

/-! `nextInput` -/

@[simp] theorem State.nextInput_v : s.nextInput.v = s.v := rfl
@[simp] theorem State.nextInput_i : s.nextInput.i = s.i := rfl
@[simp] theorem State.nextInput_pc : s.nextInput.pc = s.pc := rfl
@[simp] theorem State.nextInput_sp : s.nextInput.sp = s.sp := rfl
@[simp] theorem State.nextInput_stack : s.nextInput.stack = s.stack := rfl
@[simp] theorem State.nextInput_dt : s.nextInput.dt = s.dt := rfl
@[simp] theorem State.nextInput_st : s.nextInput.st = s.st := rfl
@[simp] theorem State.nextInput_acc : s.nextInput.acc = s.acc := rfl
@[simp] theorem State.nextInput_mem : s.nextInput.mem = s.mem := rfl
@[simp] theorem State.nextInput_disp : s.nextInput.disp = s.disp := rfl
@[simp] theorem State.nextInput_plen : s.nextInput.plen = s.plen := rfl
@[simp] theorem State.nextInput_fault : s.nextInput.fault = s.fault := rfl
@[simp] theorem State.nextInput_inputs : s.nextInput.inputs = s.inputs.tail := rfl
@[simp] theorem State.nextInput_tickNo : s.nextInput.tickNo = s.tickNo + 1 := rfl

/-! `skipWhen`: an advance whose length is a condition's -/

@[simp] theorem State.skipWhen_v (c : Bool) : (s.skipWhen c).v = s.v := rfl
@[simp] theorem State.skipWhen_i (c : Bool) : (s.skipWhen c).i = s.i := rfl
@[simp] theorem State.skipWhen_pc (c : Bool) : (s.skipWhen c).pc = s.pc + (if c then 4#16 else 2#16) := rfl
@[simp] theorem State.skipWhen_sp (c : Bool) : (s.skipWhen c).sp = s.sp := rfl
@[simp] theorem State.skipWhen_stack (c : Bool) : (s.skipWhen c).stack = s.stack := rfl
@[simp] theorem State.skipWhen_dt (c : Bool) : (s.skipWhen c).dt = s.dt := rfl
@[simp] theorem State.skipWhen_st (c : Bool) : (s.skipWhen c).st = s.st := rfl
@[simp] theorem State.skipWhen_acc (c : Bool) : (s.skipWhen c).acc = s.acc := rfl
@[simp] theorem State.skipWhen_mem (c : Bool) : (s.skipWhen c).mem = s.mem := rfl
@[simp] theorem State.skipWhen_disp (c : Bool) : (s.skipWhen c).disp = s.disp := rfl
@[simp] theorem State.skipWhen_plen (c : Bool) : (s.skipWhen c).plen = s.plen := rfl
@[simp] theorem State.skipWhen_fault (c : Bool) : (s.skipWhen c).fault = s.fault := rfl
@[simp] theorem State.skipWhen_inputs (c : Bool) : (s.skipWhen c).inputs = s.inputs := rfl
@[simp] theorem State.skipWhen_tickNo (c : Bool) : (s.skipWhen c).tickNo = s.tickNo := rfl

end Sys2Proof.Machine
end

