-- ==== Sys2Proof/Laws/Registers.lean ====
section
/-! SUPPORT. What reading a register gives after each register update, the stack operations, the timer
step, and the parameters' arithmetic. -/

namespace Sys2Proof

/-- TIMER_DIVIDE is the smallest k ≥ 1 with k · TICK_SLICE ≥ TIMER_PERIOD (00_scope.md R11). -/
theorem Laws.timerDivide_least :
    Config.timerHz * Config.timerDivide ≥ Config.ticksPerSecond ∧
      ∀ k, k < Config.timerDivide → Config.timerHz * k < Config.ticksPerSecond := by
  constructor <;> simp only [Config.timerHz, Config.timerDivide, Config.ticksPerSecond] <;> omega

namespace Machine

variable (s : State)

/-! ### Registers -/

theorem State.reg_eq (x : Reg) : s.reg x = s.v[x.val]'x.isLt := rfl

@[simp] theorem State.reg_setReg (x y : Reg) (b : Byte) :
    (s.setReg x b).reg y = if y = x then b else s.reg y := by
  simp only [State.reg, State.setReg, Vector.getElem_set, Fin.ext_iff, eq_comm]

@[simp] theorem State.reg_setRegFlag (x y : Reg) (b e : Byte) :
    (s.setRegFlag x b e).reg y = if y = 15 then e else if y = x then b else s.reg y := by
  simp only [State.setRegFlag, State.reg_setReg]

@[simp] theorem State.reg_loadFirstRegs (l : List Byte) (y : Reg) :
    (s.loadFirstRegs l).reg y = (l[y.val]?).getD (s.reg y) := by
  simp [State.reg]

/-- The registers are untouched by an update that keeps the vector. -/
theorem State.reg_congr {s t : State} (h : t.v = s.v) (x : Reg) : t.reg x = s.reg x := by
  simp only [State.reg, h]

@[simp] theorem State.reg_setIndex (w : Word) (x : Reg) : (s.setIndex w).reg x = s.reg x := rfl
@[simp] theorem State.reg_jump (w : Word) (x : Reg) : (s.jump w).reg x = s.reg x := rfl
@[simp] theorem State.reg_advance (w : Word) (x : Reg) : (s.advance w).reg x = s.reg x := rfl
@[simp] theorem State.reg_skipWhen (c : Bool) (x : Reg) : (s.skipWhen c).reg x = s.reg x := rfl
@[simp] theorem State.reg_setDt (b : Byte) (x : Reg) : (s.setDt b).reg x = s.reg x := rfl
@[simp] theorem State.reg_setSt (b : Byte) (x : Reg) : (s.setSt b).reg x = s.reg x := rfl
@[simp] theorem State.reg_setMem (m : Memory) (x : Reg) : (s.setMem m).reg x = s.reg x := rfl
@[simp] theorem State.reg_setDisp (d : Display) (x : Reg) : (s.setDisp d).reg x = s.reg x := rfl
@[simp] theorem State.reg_raise (f : Fault) (x : Reg) : (s.raise f).reg x = s.reg x := rfl
@[simp] theorem State.reg_nextInput (x : Reg) : s.nextInput.reg x = s.reg x := rfl
@[simp] theorem State.reg_setStack (p : Fin (Config.stackDepth + 1)) (k : Vector Word Config.stackDepth) (x : Reg) :
    (s.setStack p k).reg x = s.reg x := rfl
@[simp] theorem State.reg_setTimers (a : Fin Config.timerDivide) (d e : Byte) (x : Reg) :
    (s.setTimers a d e).reg x = s.reg x := rfl

/-! ### Frames -/

/-- A frame read part by part. -/
theorem frame_iff (changed : List Part) (s t : State) :
    Frame changed s t ↔
      (.v ∈ changed ∨ ∀ r, t.reg r = s.reg r) ∧ (.i ∈ changed ∨ t.i = s.i) ∧ (.pc ∈ changed ∨ t.pc = s.pc) ∧
      (.sp ∈ changed ∨ t.sp = s.sp) ∧ (.stack ∈ changed ∨ t.stack = s.stack) ∧ (.dt ∈ changed ∨ t.dt = s.dt) ∧
      (.st ∈ changed ∨ t.st = s.st) ∧ (.acc ∈ changed ∨ t.acc = s.acc) ∧
      (.mem ∈ changed ∨ ∀ a, t.mem.read a = s.mem.read a) ∧ (.disp ∈ changed ∨ t.disp = s.disp) ∧
      (.plen ∈ changed ∨ t.plen = s.plen) ∧ (.fault ∈ changed ∨ t.fault = s.fault) ∧
      (.env ∈ changed ∨ (t.inputs = s.inputs ∧ t.tickNo = s.tickNo)) := by
  constructor
  · intro h
    refine ⟨?_, ?_, ?_, ?_, ?_, ?_, ?_, ?_, ?_, ?_, ?_, ?_, ?_⟩ <;>
      exact Classical.or_iff_not_imp_left.mpr fun hp => h _ hp
  · rintro ⟨h1, h2, h3, h4, h5, h6, h7, h8, h9, h10, h11, h12, h13⟩ p hp
    cases p <;> simp_all [SameAt]

/-- Any state frames itself. -/
theorem Frame.refl (changed : List Part) (s : State) : Frame changed s s := by
  intro p _
  cases p <;> simp [SameAt]

/-- Frames compose. -/
theorem Frame.trans {changed : List Part} {s t u : State} (h : Frame changed s t) (k : Frame changed t u) :
    Frame changed s u := by
  intro p hp
  have h1 := h p hp
  have h2 := k p hp
  cases p <;> simp_all [SameAt]

/-- A frame that lists more says less. -/
theorem Frame.weaken {changed more : List Part} {s t : State} (h : Frame changed s t)
    (sub : ∀ p ∈ changed, p ∈ more) : Frame more s t := fun p hp => h p fun hc => hp (sub p hc)

/-! ### Settling -/

/-- Everything `settle` can answer. -/
theorem settle_eq_next {s t : State} {r : Except Fault State} :
    settle s r = .next t ↔ r = .ok t ∨ ∃ f, r = .error f ∧ t = s.raise f := by
  cases r <;> simp [settle, eq_comm]

@[simp] theorem settle_ok (t : State) : settle s (.ok t) = .next t := rfl
@[simp] theorem settle_error (f : Fault) : settle s (.error f) = .next (s.raise f) := rfl

/-! ### The call stack -/

/-- Everything `push` can do (R25). -/
theorem push_cases (v : Word) :
    (s.sp.val = 16 ∧ s.push v = .error .stackOverflow) ∨
      ∃ h : s.sp.val < 16,
        s.push v = .ok (s.setStack ⟨s.sp.val + 1, Nat.succ_lt_succ h⟩ (s.stack.set s.sp.val v h)) := by
  have hs := s.sp.isLt
  simp only [Config.stackDepth] at hs
  by_cases h : s.sp.val < 16
  · exact .inr ⟨h, by simp [State.push, Config.stackDepth, h]⟩
  · exact .inl ⟨by omega, by simp [State.push, Config.stackDepth, h]⟩

/-- Everything `pop` can do (R25). -/
theorem pop_cases :
    (s.sp.val = 0 ∧ s.pop = .error .stackUnderflow) ∨
      ∃ (_ : s.sp.val ≠ 0) (h : s.sp.val - 1 < 16), s.pop =
        .ok (s.stack[s.sp.val - 1]'h, s.setStack ⟨s.sp.val - 1, Nat.lt_succ_of_lt h⟩ s.stack) := by
  have hs := s.sp.isLt
  simp only [Config.stackDepth] at hs
  by_cases h : s.sp.val = 0
  · exact .inl ⟨h, by simp [State.pop, h]⟩
  · exact .inr ⟨h, by omega, by simp [State.pop, h]⟩

/-! ### The timers -/

/-- A timer counts down by one and stays at zero (R174). -/
theorem countDown_toNat (b : Byte) : (countDown b).toNat = b.toNat - 1 := by
  unfold countDown
  split
  · simp_all
  · rename_i h
    have : b.toNat ≠ 0 := fun h0 => h (BitVec.eq_of_toNat_eq (by simpa using h0))
    bv_omega

/-- The phase counts modulo nine (R173). -/
theorem timerStep_acc : s.timerStep.acc.val = (s.acc.val + 1) % 9 := by
  have hs := s.acc.isLt
  simp only [Config.timerDivide] at hs
  unfold State.timerStep
  split
  · rename_i h
    simp only [Config.timerDivide] at h
    simp [Nat.mod_eq_of_lt h]
  · rename_i h
    simp only [Config.timerDivide] at h
    have : s.acc.val = 8 := by omega
    simp [this]

theorem timerStep_dt : s.timerStep.dt.toNat = if s.acc.val = 8 then s.dt.toNat - 1 else s.dt.toNat := by
  have hs := s.acc.isLt
  simp only [Config.timerDivide] at hs
  unfold State.timerStep
  split
  · rename_i h
    simp only [Config.timerDivide] at h
    simp [show s.acc.val ≠ 8 by omega]
  · rename_i h
    simp only [Config.timerDivide] at h
    simp [show s.acc.val = 8 by omega, countDown_toNat]

theorem timerStep_st : s.timerStep.st.toNat = if s.acc.val = 8 then s.st.toNat - 1 else s.st.toNat := by
  have hs := s.acc.isLt
  simp only [Config.timerDivide] at hs
  unfold State.timerStep
  split
  · rename_i h
    simp only [Config.timerDivide] at h
    simp [show s.acc.val ≠ 8 by omega]
  · rename_i h
    simp only [Config.timerDivide] at h
    simp [show s.acc.val = 8 by omega, countDown_toNat]

/-- The timer step changes the phase and the two timers only. -/
theorem timerStep_frame : Frame [.acc, .dt, .st] s s.timerStep := by
  intro p hp
  unfold State.timerStep
  split <;> cases p <;> simp_all [SameAt]

@[simp] theorem timerStep_v : s.timerStep.v = s.v := by unfold State.timerStep; split <;> rfl
@[simp] theorem timerStep_i : s.timerStep.i = s.i := by unfold State.timerStep; split <;> rfl
@[simp] theorem timerStep_pc : s.timerStep.pc = s.pc := by unfold State.timerStep; split <;> rfl
@[simp] theorem timerStep_sp : s.timerStep.sp = s.sp := by unfold State.timerStep; split <;> rfl
@[simp] theorem timerStep_stack : s.timerStep.stack = s.stack := by unfold State.timerStep; split <;> rfl
@[simp] theorem timerStep_mem : s.timerStep.mem = s.mem := by unfold State.timerStep; split <;> rfl
@[simp] theorem timerStep_disp : s.timerStep.disp = s.disp := by unfold State.timerStep; split <;> rfl
@[simp] theorem timerStep_plen : s.timerStep.plen = s.plen := by unfold State.timerStep; split <;> rfl
@[simp] theorem timerStep_fault : s.timerStep.fault = s.fault := by unfold State.timerStep; split <;> rfl
@[simp] theorem timerStep_inputs : s.timerStep.inputs = s.inputs := by unfold State.timerStep; split <;> rfl
@[simp] theorem timerStep_tickNo : s.timerStep.tickNo = s.tickNo := by unfold State.timerStep; split <;> rfl

end Machine

end Sys2Proof
end

