-- ==== Sys2Proof/Laws/Memory.lean ====
section
/-! SUPPORT. The laws of memory: read after write, spans of bytes, and the canonical form that every
memory operation keeps. -/

namespace Sys2Proof.Machine

/-! ### One byte -/

theorem Memory.read_insert (m : Memory) (a b : Nat) (v : Byte) :
    (m.insert a v).read b = if b = a then v else m.read b := by
  induction m with
  | nil => simp [Memory.insert, Memory.read]
  | cons c rest ih =>
    obtain ⟨k, w⟩ := c
    unfold Memory.insert
    split
    · simp [Memory.read]
    · split
      · subst k
        by_cases hb : b = a <;> simp [Memory.read, hb]
      · by_cases hb : b = k
        · subst b
          simp [Memory.read, show k ≠ a by omega]
        · simp [Memory.read, hb, ih]

theorem Memory.read_erase (m : Memory) (a b : Nat) :
    Memory.read (m.filter fun c => decide (c.1 ≠ a)) b = if b = a then Memory.background a else m.read b := by
  induction m with
  | nil => by_cases hb : b = a <;> simp [Memory.read, hb]
  | cons c rest ih =>
    obtain ⟨k, w⟩ := c
    by_cases hk : k = a
    · subst k
      rw [List.filter_cons_of_neg (by simp), ih]
      by_cases hb : b = a <;> simp [Memory.read, hb]
    · rw [List.filter_cons_of_pos (by simpa using hk)]
      by_cases hb : b = k
      · subst b
        simp [Memory.read, hk]
      · simp only [Memory.read, if_neg hb, ih]

/-- A read after a write gives the value written at its address and the old value elsewhere (R61). -/
@[simp] theorem Memory.read_write (m : Memory) (a b : Nat) (v : Byte) :
    (m.write a v).read b = if b = a then v else m.read b := by
  unfold Memory.write
  split
  · subst v
    exact Memory.read_erase m a b
  · exact Memory.read_insert m a b v

/-! ### Spans -/

/-- A read after a span of writes: the span's bytes inside it, the old bytes outside. -/
theorem Memory.read_writeSpan (bytes : List Byte) (m : Memory) (a b : Nat) :
    (m.writeSpan a bytes).read b = if a ≤ b then (bytes[b - a]?).getD (m.read b) else m.read b := by
  induction bytes generalizing m a with
  | nil => simp [Memory.writeSpan]
  | cons v vs ih =>
    simp only [Memory.writeSpan, ih, Memory.read_write]
    by_cases h1 : b = a
    · subst b
      simp [show ¬ a + 1 ≤ a by omega]
    · by_cases h2 : a ≤ b
      · obtain ⟨d, rfl⟩ : ∃ d, b = a + 1 + d := ⟨b - (a + 1), by omega⟩
        simp [show a + 1 + d - a = d + 1 by omega, show a ≤ a + 1 + d by omega, show a + 1 + d ≠ a by omega]
      · simp [h1, h2, show ¬ a + 1 ≤ b by omega]

theorem Memory.read_writeSpan_inside {bytes : List Byte} {m : Memory} {a k : Nat} (h : k < bytes.length) :
    (m.writeSpan a bytes).read (a + k) = bytes[k] := by
  simp [Memory.read_writeSpan, h]

theorem Memory.read_writeSpan_outside {bytes : List Byte} {m : Memory} {a b : Nat}
    (h : b < a ∨ a + bytes.length ≤ b) : (m.writeSpan a bytes).read b = m.read b := by
  rw [Memory.read_writeSpan]
  split
  · rw [List.getElem?_eq_none (by omega)]
    rfl
  · rfl

@[simp] theorem Memory.length_readSpan (m : Memory) (a n : Nat) : (m.readSpan a n).length = n := by
  simp [Memory.readSpan]

theorem Memory.getElem?_readSpan (m : Memory) (a n k : Nat) :
    (m.readSpan a n)[k]? = if k < n then some (m.read (a + k)) else none := by
  simp only [Memory.readSpan, List.getElem?_map]
  by_cases h : k < n <;> simp [h]

/-! ### The checked accesses (R53–R55) -/

theorem spanInMemory_iff (a n : Nat) : spanInMemory a n = true ↔ n = 0 ∨ a + n ≤ 4096 := by
  simp [spanInMemory]

/-- Everything `memRead` can answer. -/
theorem memRead_cases (m : Memory) (a n : Nat) :
    ((n = 0 ∨ a + n ≤ 4096) ∧ memRead m a n = .ok (m.readSpan a n)) ∨
      (n ≠ 0 ∧ 4096 < a + n ∧ memRead m a n = .error .memoryOutOfRange) := by
  by_cases h : n = 0 ∨ a + n ≤ 4096
  · exact .inl ⟨h, by simp [memRead, spanInMemory, h]⟩
  · exact .inr ⟨by omega, by omega, by simp [memRead, spanInMemory, h]⟩

/-- Everything `memWrite` can answer. -/
theorem memWrite_cases (m : Memory) (a : Nat) (bytes : List Byte) :
    ((bytes = [] ∨ a + bytes.length ≤ 4096) ∧ memWrite m a bytes = .ok (m.writeSpan a bytes)) ∨
      (bytes ≠ [] ∧ 4096 < a + bytes.length ∧ memWrite m a bytes = .error .memoryOutOfRange) := by
  by_cases h : bytes.length = 0 ∨ a + bytes.length ≤ 4096
  · refine .inl ⟨by simpa [← List.length_eq_zero_iff] using h, ?_⟩
    rw [memWrite, if_pos]
    rw [spanInMemory_iff]
    exact h
  · refine .inr ⟨by simp [← List.length_eq_zero_iff]; omega, by omega, ?_⟩
    rw [memWrite, if_neg]
    rw [spanInMemory_iff]
    exact h

/-! ### The canonical form -/

theorem Memory.wf_cons {a : Nat} {v : Byte} {rest : Memory} :
    Memory.wf ((a, v) :: rest) = true ↔
      a < 4096 ∧ v ≠ Memory.background a ∧ (∀ c ∈ rest, a < c.1) ∧ rest.wf = true := by
  simp [Memory.wf, and_assoc]

theorem Memory.mem_insert {m : Memory} {a : Nat} {v : Byte} {c : Host.Cell} (h : c ∈ m.insert a v) :
    c = (a, v) ∨ c ∈ m := by
  induction m with
  | nil => simpa [Memory.insert] using h
  | cons d rest ih =>
    obtain ⟨k, w⟩ := d
    unfold Memory.insert at h
    split at h
    · simpa using h
    · split at h
      · rcases List.mem_cons.mp h with h | h
        · exact .inl h
        · exact .inr (List.mem_cons_of_mem _ h)
      · rcases List.mem_cons.mp h with h | h
        · exact .inr (h ▸ List.mem_cons_self ..)
        · exact (ih h).imp id (List.mem_cons_of_mem _)

theorem Memory.wf_insert {m : Memory} {a : Nat} {v : Byte} (hm : m.wf = true) (ha : a < 4096)
    (hv : v ≠ Memory.background a) : (m.insert a v).wf = true := by
  induction m with
  | nil => simp [Memory.insert, Memory.wf, ha, hv]
  | cons c rest ih =>
    obtain ⟨k, w⟩ := c
    obtain ⟨hk, hw, hr, hwf⟩ := Memory.wf_cons.mp hm
    unfold Memory.insert
    split
    · rename_i hak
      refine Memory.wf_cons.mpr ⟨ha, hv, ?_, hm⟩
      intro c hc
      rcases List.mem_cons.mp hc with rfl | hc
      · exact hak
      · exact Nat.lt_trans hak (hr c hc)
    · split
      · subst k
        exact Memory.wf_cons.mpr ⟨ha, hv, hr, hwf⟩
      · refine Memory.wf_cons.mpr ⟨hk, hw, ?_, ih hwf⟩
        intro c hc
        rcases Memory.mem_insert hc with rfl | hc
        · simp only
          omega
        · exact hr c hc

theorem Memory.wf_erase {m : Memory} (a : Nat) (hm : m.wf = true) :
    Memory.wf (m.filter fun c => decide (c.1 ≠ a)) = true := by
  induction m with
  | nil => rfl
  | cons c rest ih =>
    obtain ⟨k, w⟩ := c
    obtain ⟨hk, hw, hr, hwf⟩ := Memory.wf_cons.mp hm
    by_cases h : k = a
    · rw [List.filter_cons_of_neg (by simpa using h)]
      exact ih hwf
    · rw [List.filter_cons_of_pos (by simpa using h)]
      exact Memory.wf_cons.mpr ⟨hk, hw, fun c hc => hr c (List.mem_filter.mp hc).1, ih hwf⟩

/-- A write keeps the canonical form. -/
theorem Memory.wf_write {m : Memory} {a : Nat} (v : Byte) (hm : m.wf = true) (ha : a < 4096) :
    (m.write a v).wf = true := by
  unfold Memory.write
  split
  · exact Memory.wf_erase a hm
  · rename_i hv
    exact Memory.wf_insert hm ha hv

/-- A span of writes keeps the canonical form. -/
theorem Memory.wf_writeSpan {bytes : List Byte} {m : Memory} {a : Nat} (hm : m.wf = true)
    (ha : bytes = [] ∨ a + bytes.length ≤ 4096) : (m.writeSpan a bytes).wf = true := by
  induction bytes generalizing m a with
  | nil => exact hm
  | cons v vs ih =>
    have h : a + (vs.length + 1) ≤ 4096 := by simpa using ha
    exact ih (Memory.wf_write v hm (by omega)) (.inr (by omega))

/-- A checked write keeps the canonical form. -/
theorem Memory.wf_memWrite {bytes : List Byte} {m m' : Memory} {a : Nat} (hm : m.wf = true)
    (h : memWrite m a bytes = .ok m') : m'.wf = true := by
  rcases memWrite_cases m a bytes with ⟨hs, he⟩ | ⟨-, -, he⟩
  · rw [he] at h
    cases h
    exact Memory.wf_writeSpan hm hs
  · rw [he] at h
    cases h

end Sys2Proof.Machine
end

