-- ==== Sys2Proof/Laws/Display.lean ====
section
/-! SUPPORT. The laws of the framebuffer: reading a pixel after flipping one, and drawing a sprite as
flipping each of a list of distinct pixels once (44_display.md R146). -/

namespace Sys2Proof.Machine

/-! ### One pixel -/

/-- A pixel read after a flip (R31). -/
theorem dispBit_flipBit (d : Display) {p : Nat} (hp : p < 2048) (q : Nat) :
    dispBit (flipBit d p) q = (dispBit d q ^^ decide (p = q)) := by
  have hb : ∀ k, k < 8 → (1#8 <<< k).getLsbD k = true := by decide
  have hne : ∀ j, j < 8 → ∀ k, k < 8 → j ≠ k → (1#8 <<< j).getLsbD k = false := by decide
  have hsize : p / 8 < Config.dispBytes := by
    simp only [Config.dispBytes]
    omega
  simp only [dispBit, flipBit, Vector.getElem?_setIfInBounds]
  by_cases hk : p / 8 = q / 8
  · rw [if_pos hk]
    rw [hk] at hsize ⊢
    simp only [hsize, if_true, Option.getD_some, BitVec.getLsbD_xor]
    congr 1
    by_cases h : p = q
    · subst q
      simpa using hb _ (by omega)
    · rw [hne _ (by omega) _ (by omega) (by omega)]
      simp [h]
  · rw [if_neg hk]
    simp [show p ≠ q by rintro rfl; exact hk rfl]

/-- A pixel after CLS is dark (R145). -/
theorem dispBit_replicate_zero (p : Nat) : dispBit (Vector.replicate Config.dispBytes 0#8) p = false := by
  simp only [dispBit, Vector.getElem?_replicate]
  split <;> simp

/-- Two framebuffers with the same 2048 pixels are equal (R31). -/
theorem display_ext {d e : Display} (h : ∀ p, p < 2048 → dispBit d p = dispBit e p) : d = e := by
  apply Vector.ext
  intro j hj
  apply BitVec.eq_of_getLsbD_eq
  intro k hk
  have hj' : j < 256 := hj
  have := h (8 * j + (7 - k)) (by omega)
  simpa [dispBit, show (8 * j + (7 - k)) / 8 = j by omega, Nat.mod_eq_of_lt (show 7 - k < 8 by omega),
    show 7 - (7 - k) = k by omega, hj]
    using this

theorem pixelIndex_lt (px py : Nat) : pixelIndex px py < 2048 := by
  simp only [pixelIndex, Config.dispW, Config.dispH]
  omega

/-- Equal linear indices are equal wrapped coordinates (R31). -/
theorem pixelIndex_inj {px py qx qy : Nat} (h : pixelIndex px py = pixelIndex qx qy) :
    px % 64 = qx % 64 ∧ py % 32 = qy % 32 := by
  simp only [pixelIndex, Config.dispW, Config.dispH] at h
  omega

/-! ### A sprite -/

/-- The pixels under the 1 bits of a row of the sprite. -/
def rowPixels (b : Byte) (x0 y : Nat) : List Nat :=
  ((List.range 8).filter fun col => b.getLsbD (7 - col)).map fun col => pixelIndex (x0 + col) y

/-- The pixels under the 1 bits of the sprite, in drawing order. -/
def spritePixels : List Byte → Nat → Nat → List Nat
  | [], _, _ => []
  | b :: bs, x0, y => rowPixels b x0 y ++ spritePixels bs x0 (y + 1)

/-- Drawing a sprite is drawing its pixels one after the other. -/
theorem drawSprite_eq_foldl (sprite : List Byte) (x0 y : Nat) (c : Canvas) :
    drawSprite sprite x0 y c = (spritePixels sprite x0 y).foldl (fun c p => drawPixel p c) c := by
  induction sprite generalizing y c with
  | nil => rfl
  | cons b bs ih =>
    rw [drawSprite, ih, spritePixels, List.foldl_append, rowPixels, List.foldl_map, List.foldl_filter]
    rfl

theorem mem_rowPixels {b : Byte} {x0 y p : Nat} :
    p ∈ rowPixels b x0 y ↔ ∃ col, col < 8 ∧ b.getLsbD (7 - col) = true ∧ p = pixelIndex (x0 + col) y := by
  simp only [rowPixels, List.mem_map, List.mem_filter, List.mem_range]
  constructor
  · rintro ⟨c, ⟨h1, h2⟩, h3⟩
    exact ⟨c, h1, h2, h3.symm⟩
  · rintro ⟨c, h1, h2, h3⟩
    exact ⟨c, ⟨h1, h2⟩, h3.symm⟩

/-- Which pixels a sprite covers. -/
theorem mem_spritePixels {sprite : List Byte} {x0 y p : Nat} :
    p ∈ spritePixels sprite x0 y ↔ ∃ row col b, sprite[row]? = some b ∧ col < 8 ∧
      b.getLsbD (7 - col) = true ∧ p = pixelIndex (x0 + col) (y + row) := by
  induction sprite generalizing y with
  | nil => simp [spritePixels]
  | cons b bs ih =>
    simp only [spritePixels, List.mem_append, mem_rowPixels, ih]
    constructor
    · rintro (⟨c, h⟩ | ⟨r, c, d, h1, h2, h3, h4⟩)
      · exact ⟨0, c, b, rfl, h⟩
      · exact ⟨r + 1, c, d, h1, h2, h3, by rw [h4, Nat.add_assoc, Nat.add_comm 1]⟩
    · rintro ⟨r, c, d, h1, h2, h3, h4⟩
      cases r with
      | zero =>
        cases h1
        exact .inl ⟨c, h2, h3, h4⟩
      | succ r => exact .inr ⟨r, c, d, h1, h2, h3, by rw [h4, Nat.add_assoc, Nat.add_comm 1]⟩

/-- A sprite of at most 32 rows covers no pixel twice. -/
theorem spritePixels_nodup {sprite : List Byte} {x0 y : Nat} (h : sprite.length ≤ 32) :
    (spritePixels sprite x0 y).Nodup := by
  induction sprite generalizing y with
  | nil => exact List.nodup_nil
  | cons b bs ih =>
    simp only [List.length_cons] at h
    refine List.nodup_append.mpr ⟨?_, ih (by omega), ?_⟩
    · refine List.Nodup.map_on ?_ (List.nodup_range.filter _)
      intro c hc d hd he
      simp only [List.mem_filter, List.mem_range] at hc hd
      have := pixelIndex_inj he
      omega
    · intro p hp q hq he
      subst q
      obtain ⟨c, -, -, h1⟩ := mem_rowPixels.mp hp
      obtain ⟨r, d, e, h2, -, -, h3⟩ := mem_spritePixels.mp hq
      have := pixelIndex_inj (h1.symm.trans h3)
      have : r < bs.length := by
        rcases List.getElem?_eq_some_iff.mp h2 with ⟨hr, -⟩
        exact hr
      omega

/-- Drawing distinct pixels: each is flipped once, and a collision is a lit pixel among them. -/
theorem foldl_drawPixel (ps : List Nat) (hn : ps.Nodup) (hb : ∀ p ∈ ps, p < 2048) (c : Canvas) :
    (∀ q, dispBit (ps.foldl (fun c p => drawPixel p c) c).disp q = (dispBit c.disp q ^^ decide (q ∈ ps))) ∧
      ((ps.foldl (fun c p => drawPixel p c) c).collided = true ↔
        c.collided = true ∨ ∃ p ∈ ps, dispBit c.disp p = true) := by
  induction ps generalizing c with
  | nil => simp
  | cons p ps ih =>
    obtain ⟨hp, hn⟩ := List.nodup_cons.mp hn
    have hp8 := hb p (List.mem_cons_self ..)
    obtain ⟨h1, h2⟩ := ih hn (fun q hq => hb q (List.mem_cons_of_mem _ hq)) (drawPixel p c)
    refine ⟨fun q => ?_, ?_⟩
    · rw [List.foldl_cons, h1, drawPixel, dispBit_flipBit _ hp8]
      by_cases hq : p = q
      · subst q
        simp [hp]
      · simp [hq, Ne.symm hq]
    · rw [List.foldl_cons, h2]
      simp only [drawPixel, Bool.or_eq_true, dispBit_flipBit _ hp8, List.exists_mem_cons_iff, or_assoc]
      refine or_congr Iff.rfl (or_congr Iff.rfl ?_)
      constructor <;> rintro ⟨q, hq, h⟩ <;> refine ⟨q, hq, ?_⟩
      · simpa [show p ≠ q by rintro rfl; exact hp hq] using h
      · simpa [show p ≠ q by rintro rfl; exact hp hq] using h

/-- Everything drawing a sprite of at most 32 rows does (R146). -/
theorem drawSprite_spec {sprite : List Byte} (h : sprite.length ≤ 32) (x0 y : Nat) (d : Display) :
    (∀ q, dispBit (drawSprite sprite x0 y ⟨d, false⟩).disp q =
        (dispBit d q ^^ decide (q ∈ spritePixels sprite x0 y))) ∧
      ((drawSprite sprite x0 y ⟨d, false⟩).collided = true ↔
        ∃ p ∈ spritePixels sprite x0 y, dispBit d p = true) := by
  rw [drawSprite_eq_foldl]
  have := foldl_drawPixel _ (spritePixels_nodup h (x0 := x0) (y := y)) (fun p hp => by
    obtain ⟨r, c, b, -, -, -, rfl⟩ := mem_spritePixels.mp hp
    exact pixelIndex_lt _ _) ⟨d, false⟩
  simpa using this

end Sys2Proof.Machine
end

