-- ==== Sys2Proof/Laws/PerInstr.lean ====
section
/-! SUPPORT. The fields of a word put back from its formats, and for every instruction: it is well formed
and its word decodes to it (30_encoding.md R70–R79). -/

namespace Sys2Proof

/-! ### The fields of a word as numbers (R71) -/

theorem opOf_toNat (w : Word) : (opOf w).toNat = w.toNat / 4096 := by
  have := w.isLt
  simp only [opOf, BitVec.extractLsb'_toNat, Nat.shiftRight_eq_div_pow]
  omega

theorem xOf_val (w : Word) : (xOf w).val = w.toNat / 256 % 16 := by
  change (w.extractLsb' 8 4).toNat = _
  simp only [BitVec.extractLsb'_toNat, Nat.shiftRight_eq_div_pow]

theorem yOf_val (w : Word) : (yOf w).val = w.toNat / 16 % 16 := by
  change (w.extractLsb' 4 4).toNat = _
  simp only [BitVec.extractLsb'_toNat, Nat.shiftRight_eq_div_pow]

theorem nOf_toNat (w : Word) : (nOf w).toNat = w.toNat % 16 := by
  simp only [nOf, BitVec.extractLsb'_toNat, Nat.shiftRight_eq_div_pow]
  omega

theorem kkOf_toNat (w : Word) : (kkOf w).toNat = w.toNat % 256 := by
  simp only [kkOf, BitVec.extractLsb'_toNat, Nat.shiftRight_eq_div_pow]
  omega

theorem nnnOf_toNat (w : Word) : (nnnOf w).toNat = w.toNat % 4096 := by
  simp only [nnnOf, BitVec.extractLsb'_toNat, Nat.shiftRight_eq_div_pow]
  omega

/-! ### The words of the formats as numbers (R73) -/

theorem wordADDR_toNat (op : Nibble) (nnn : Addr) :
    (wordADDR op nnn).toNat = op.toNat * 4096 + nnn.toNat := by
  have := op.isLt
  have := nnn.isLt
  simp only [wordADDR, BitVec.toNat_ofNat]
  omega

theorem wordXKK_toNat (op : Nibble) (x : Reg) (kk : Byte) :
    (wordXKK op x kk).toNat = op.toNat * 4096 + x.val * 256 + kk.toNat := by
  have := op.isLt
  have := x.isLt
  have := kk.isLt
  simp only [wordXKK, BitVec.toNat_ofNat]
  omega

theorem wordXYN_toNat (op : Nibble) (x y : Reg) (n : Nibble) :
    (wordXYN op x y n).toNat = op.toNat * 4096 + x.val * 256 + y.val * 16 + n.toNat := by
  have := op.isLt
  have := x.isLt
  have := y.isLt
  have := n.isLt
  simp only [wordXYN, BitVec.toNat_ofNat]
  omega

/-! ### The fields of the words of the formats -/

@[simp] theorem opOf_wordADDR (op : Nibble) (nnn : Addr) : opOf (wordADDR op nnn) = op := by
  have := nnn.isLt
  apply BitVec.eq_of_toNat_eq
  rw [opOf_toNat, wordADDR_toNat]
  omega

@[simp] theorem nnnOf_wordADDR (op : Nibble) (nnn : Addr) : nnnOf (wordADDR op nnn) = nnn := by
  have := nnn.isLt
  apply BitVec.eq_of_toNat_eq
  rw [nnnOf_toNat, wordADDR_toNat]
  omega

@[simp] theorem opOf_wordXKK (op : Nibble) (x : Reg) (kk : Byte) : opOf (wordXKK op x kk) = op := by
  have := x.isLt
  have := kk.isLt
  apply BitVec.eq_of_toNat_eq
  rw [opOf_toNat, wordXKK_toNat]
  omega

@[simp] theorem xOf_wordXKK (op : Nibble) (x : Reg) (kk : Byte) : xOf (wordXKK op x kk) = x := by
  have := x.isLt
  have := kk.isLt
  apply Fin.ext
  rw [xOf_val, wordXKK_toNat]
  omega

@[simp] theorem kkOf_wordXKK (op : Nibble) (x : Reg) (kk : Byte) : kkOf (wordXKK op x kk) = kk := by
  have := kk.isLt
  apply BitVec.eq_of_toNat_eq
  rw [kkOf_toNat, wordXKK_toNat]
  omega

@[simp] theorem opOf_wordXYN (op : Nibble) (x y : Reg) (n : Nibble) : opOf (wordXYN op x y n) = op := by
  have := x.isLt
  have := y.isLt
  have := n.isLt
  apply BitVec.eq_of_toNat_eq
  rw [opOf_toNat, wordXYN_toNat]
  omega

@[simp] theorem xOf_wordXYN (op : Nibble) (x y : Reg) (n : Nibble) : xOf (wordXYN op x y n) = x := by
  have := x.isLt
  have := y.isLt
  have := n.isLt
  apply Fin.ext
  rw [xOf_val, wordXYN_toNat]
  omega

@[simp] theorem yOf_wordXYN (op : Nibble) (x y : Reg) (n : Nibble) : yOf (wordXYN op x y n) = y := by
  have := y.isLt
  have := n.isLt
  apply Fin.ext
  rw [yOf_val, wordXYN_toNat]
  omega

@[simp] theorem nOf_wordXYN (op : Nibble) (x y : Reg) (n : Nibble) : nOf (wordXYN op x y n) = n := by
  have := n.isLt
  apply BitVec.eq_of_toNat_eq
  rw [nOf_toNat, wordXYN_toNat]
  omega

/-! ### A word put together from its fields -/

theorem wordADDR_fields (w : Word) : wordADDR (opOf w) (nnnOf w) = w := by
  apply BitVec.eq_of_toNat_eq
  rw [wordADDR_toNat, opOf_toNat, nnnOf_toNat]
  omega

theorem wordXKK_fields (w : Word) : wordXKK (opOf w) (xOf w) (kkOf w) = w := by
  apply BitVec.eq_of_toNat_eq
  rw [wordXKK_toNat, opOf_toNat, xOf_val, kkOf_toNat]
  omega

theorem wordXYN_fields (w : Word) : wordXYN (opOf w) (xOf w) (yOf w) (nOf w) = w := by
  apply BitVec.eq_of_toNat_eq
  rw [wordXYN_toNat, opOf_toNat, xOf_val, yOf_val, nOf_toNat]
  omega

/-! ### Bytes -/

/-- The two bytes of a word, read back in memory order, are the word (20_memory.md R56). -/
theorem wordOfBytes_bytesOfWord (w : Word) : wordOfBytes (w.extractLsb' 8 8) (w.extractLsb' 0 8) = w := by
  have := w.isLt
  apply BitVec.eq_of_toNat_eq
  simp only [wordOfBytes, BitVec.toNat_ofNat, BitVec.extractLsb'_toNat, Nat.shiftRight_eq_div_pow]
  omega

theorem wordOfBytes_toNat (a b : Byte) : (wordOfBytes a b).toNat = a.toNat * 256 + b.toNat := by
  have := a.isLt
  have := b.isLt
  simp only [wordOfBytes, BitVec.toNat_ofNat]
  omega

/-- The decoder on the bytes of a word. -/
theorem decode_bytesOfWord (w : Word) (rest : List Byte) :
    decode (bytesOfWord w ++ rest) =
      match decodeWord w with
      | some i => .ok (i, rest)
      | none => .error (.unknown w) := by
  cases h : decodeWord w <;>
    simp only [bytesOfWord, List.cons_append, List.nil_append, decode, wordOfBytes_bytesOfWord, h]

/-! ### Every operand fits its field -/

theorem Operand.fits_reg_x (x : Reg) : Operand.fits ⟨.x, x.val⟩ = true := by
  simp [Operand.fits, Field.width, Field.bits]

theorem Operand.fits_reg_y (y : Reg) : Operand.fits ⟨.y, y.val⟩ = true := by
  simp [Operand.fits, Field.width, Field.bits]

theorem Operand.fits_nibble (n : Nibble) : Operand.fits ⟨.n, n.toNat⟩ = true :=
  decide_eq_true (p := n.toNat < 2 ^ Field.width .n) n.isLt

theorem Operand.fits_byte (kk : Byte) : Operand.fits ⟨.kk, kk.toNat⟩ = true :=
  decide_eq_true (p := kk.toNat < 2 ^ Field.width .kk) kk.isLt

theorem Operand.fits_addr (nnn : Addr) : Operand.fits ⟨.nnn, nnn.toNat⟩ = true :=
  decide_eq_true (p := nnn.toNat < 2 ^ Field.width .nnn) nnn.isLt

/-! ### The family RoundTrip -/

/-- The instruction is well formed, and its word decodes to it. -/
def Laws.RoundTrip.Statement (i : Instr) : Prop := i.wellFormed = true ∧ decodeWord (encodeWord i) = some i

theorem Laws.RoundTrip.cls : Laws.RoundTrip.Statement .cls := ⟨rfl, by decide⟩

theorem Laws.RoundTrip.ret : Laws.RoundTrip.Statement .ret := ⟨rfl, by decide⟩

theorem Laws.RoundTrip.jp (nnn : Addr) : Laws.RoundTrip.Statement (.jp nnn) :=
  ⟨by simp [Instr.wellFormed, Instr.operands, Operand.fits_addr],
    by simp [encodeWord, decodeWord]⟩

theorem Laws.RoundTrip.call (nnn : Addr) : Laws.RoundTrip.Statement (.call nnn) :=
  ⟨by simp [Instr.wellFormed, Instr.operands, Operand.fits_addr],
    by simp [encodeWord, decodeWord]⟩

theorem Laws.RoundTrip.seByte (x : Reg) (kk : Byte) : Laws.RoundTrip.Statement (.seByte x kk) :=
  ⟨by simp [Instr.wellFormed, Instr.operands, Operand.fits_reg_x, Operand.fits_byte],
    by simp [encodeWord, decodeWord]⟩

theorem Laws.RoundTrip.sneByte (x : Reg) (kk : Byte) : Laws.RoundTrip.Statement (.sneByte x kk) :=
  ⟨by simp [Instr.wellFormed, Instr.operands, Operand.fits_reg_x, Operand.fits_byte],
    by simp [encodeWord, decodeWord]⟩

theorem Laws.RoundTrip.seReg (x y : Reg) (n : Nibble) : Laws.RoundTrip.Statement (.seReg x y n) :=
  ⟨by simp [Instr.wellFormed, Instr.operands, Operand.fits_reg_x, Operand.fits_reg_y, Operand.fits_nibble],
    by simp [encodeWord, decodeWord]⟩

theorem Laws.RoundTrip.ldByte (x : Reg) (kk : Byte) : Laws.RoundTrip.Statement (.ldByte x kk) :=
  ⟨by simp [Instr.wellFormed, Instr.operands, Operand.fits_reg_x, Operand.fits_byte],
    by simp [encodeWord, decodeWord]⟩

theorem Laws.RoundTrip.addByte (x : Reg) (kk : Byte) : Laws.RoundTrip.Statement (.addByte x kk) :=
  ⟨by simp [Instr.wellFormed, Instr.operands, Operand.fits_reg_x, Operand.fits_byte],
    by simp [encodeWord, decodeWord]⟩

theorem Laws.RoundTrip.ldReg (x y : Reg) : Laws.RoundTrip.Statement (.ldReg x y) :=
  ⟨by simp [Instr.wellFormed, Instr.operands, Operand.fits_reg_x, Operand.fits_reg_y],
    by simp [encodeWord, decodeWord, decodeGroup8]⟩

theorem Laws.RoundTrip.orReg (x y : Reg) : Laws.RoundTrip.Statement (.orReg x y) :=
  ⟨by simp [Instr.wellFormed, Instr.operands, Operand.fits_reg_x, Operand.fits_reg_y],
    by simp [encodeWord, decodeWord, decodeGroup8]⟩

theorem Laws.RoundTrip.andReg (x y : Reg) : Laws.RoundTrip.Statement (.andReg x y) :=
  ⟨by simp [Instr.wellFormed, Instr.operands, Operand.fits_reg_x, Operand.fits_reg_y],
    by simp [encodeWord, decodeWord, decodeGroup8]⟩

theorem Laws.RoundTrip.xorReg (x y : Reg) : Laws.RoundTrip.Statement (.xorReg x y) :=
  ⟨by simp [Instr.wellFormed, Instr.operands, Operand.fits_reg_x, Operand.fits_reg_y],
    by simp [encodeWord, decodeWord, decodeGroup8]⟩

theorem Laws.RoundTrip.addReg (x y : Reg) : Laws.RoundTrip.Statement (.addReg x y) :=
  ⟨by simp [Instr.wellFormed, Instr.operands, Operand.fits_reg_x, Operand.fits_reg_y],
    by simp [encodeWord, decodeWord, decodeGroup8]⟩

theorem Laws.RoundTrip.subReg (x y : Reg) : Laws.RoundTrip.Statement (.subReg x y) :=
  ⟨by simp [Instr.wellFormed, Instr.operands, Operand.fits_reg_x, Operand.fits_reg_y],
    by simp [encodeWord, decodeWord, decodeGroup8]⟩

theorem Laws.RoundTrip.shr (x y : Reg) : Laws.RoundTrip.Statement (.shr x y) :=
  ⟨by simp [Instr.wellFormed, Instr.operands, Operand.fits_reg_x, Operand.fits_reg_y],
    by simp [encodeWord, decodeWord, decodeGroup8]⟩

theorem Laws.RoundTrip.subnReg (x y : Reg) : Laws.RoundTrip.Statement (.subnReg x y) :=
  ⟨by simp [Instr.wellFormed, Instr.operands, Operand.fits_reg_x, Operand.fits_reg_y],
    by simp [encodeWord, decodeWord, decodeGroup8]⟩

theorem Laws.RoundTrip.shl (x y : Reg) : Laws.RoundTrip.Statement (.shl x y) :=
  ⟨by simp [Instr.wellFormed, Instr.operands, Operand.fits_reg_x, Operand.fits_reg_y],
    by simp [encodeWord, decodeWord, decodeGroup8]⟩

theorem Laws.RoundTrip.sneReg (x y : Reg) (n : Nibble) : Laws.RoundTrip.Statement (.sneReg x y n) :=
  ⟨by simp [Instr.wellFormed, Instr.operands, Operand.fits_reg_x, Operand.fits_reg_y, Operand.fits_nibble],
    by simp [encodeWord, decodeWord]⟩

theorem Laws.RoundTrip.ldI (nnn : Addr) : Laws.RoundTrip.Statement (.ldI nnn) :=
  ⟨by simp [Instr.wellFormed, Instr.operands, Operand.fits_addr],
    by simp [encodeWord, decodeWord]⟩

theorem Laws.RoundTrip.jpV0 (nnn : Addr) : Laws.RoundTrip.Statement (.jpV0 nnn) :=
  ⟨by simp [Instr.wellFormed, Instr.operands, Operand.fits_addr],
    by simp [encodeWord, decodeWord]⟩

theorem Laws.RoundTrip.rnd (x : Reg) (kk : Byte) : Laws.RoundTrip.Statement (.rnd x kk) :=
  ⟨by simp [Instr.wellFormed, Instr.operands, Operand.fits_reg_x, Operand.fits_byte],
    by simp [encodeWord, decodeWord]⟩

theorem Laws.RoundTrip.drw (x y : Reg) (n : Nibble) : Laws.RoundTrip.Statement (.drw x y n) :=
  ⟨by simp [Instr.wellFormed, Instr.operands, Operand.fits_reg_x, Operand.fits_reg_y, Operand.fits_nibble],
    by simp [encodeWord, decodeWord]⟩

theorem Laws.RoundTrip.skp (x : Reg) : Laws.RoundTrip.Statement (.skp x) :=
  ⟨by simp [Instr.wellFormed, Instr.operands, Operand.fits_reg_x],
    by simp [encodeWord, decodeWord, decodeGroupE]⟩

theorem Laws.RoundTrip.sknp (x : Reg) : Laws.RoundTrip.Statement (.sknp x) :=
  ⟨by simp [Instr.wellFormed, Instr.operands, Operand.fits_reg_x],
    by simp [encodeWord, decodeWord, decodeGroupE]⟩

theorem Laws.RoundTrip.ldVxDt (x : Reg) : Laws.RoundTrip.Statement (.ldVxDt x) :=
  ⟨by simp [Instr.wellFormed, Instr.operands, Operand.fits_reg_x],
    by simp [encodeWord, decodeWord, decodeGroupF]⟩

theorem Laws.RoundTrip.ldVxK (x : Reg) : Laws.RoundTrip.Statement (.ldVxK x) :=
  ⟨by simp [Instr.wellFormed, Instr.operands, Operand.fits_reg_x],
    by simp [encodeWord, decodeWord, decodeGroupF]⟩

theorem Laws.RoundTrip.ldDtVx (x : Reg) : Laws.RoundTrip.Statement (.ldDtVx x) :=
  ⟨by simp [Instr.wellFormed, Instr.operands, Operand.fits_reg_x],
    by simp [encodeWord, decodeWord, decodeGroupF]⟩

theorem Laws.RoundTrip.ldStVx (x : Reg) : Laws.RoundTrip.Statement (.ldStVx x) :=
  ⟨by simp [Instr.wellFormed, Instr.operands, Operand.fits_reg_x],
    by simp [encodeWord, decodeWord, decodeGroupF]⟩

theorem Laws.RoundTrip.addI (x : Reg) : Laws.RoundTrip.Statement (.addI x) :=
  ⟨by simp [Instr.wellFormed, Instr.operands, Operand.fits_reg_x],
    by simp [encodeWord, decodeWord, decodeGroupF]⟩

theorem Laws.RoundTrip.ldF (x : Reg) : Laws.RoundTrip.Statement (.ldF x) :=
  ⟨by simp [Instr.wellFormed, Instr.operands, Operand.fits_reg_x],
    by simp [encodeWord, decodeWord, decodeGroupF]⟩

theorem Laws.RoundTrip.ldB (x : Reg) : Laws.RoundTrip.Statement (.ldB x) :=
  ⟨by simp [Instr.wellFormed, Instr.operands, Operand.fits_reg_x],
    by simp [encodeWord, decodeWord, decodeGroupF]⟩

theorem Laws.RoundTrip.ldMemVx (x : Reg) : Laws.RoundTrip.Statement (.ldMemVx x) :=
  ⟨by simp [Instr.wellFormed, Instr.operands, Operand.fits_reg_x],
    by simp [encodeWord, decodeWord, decodeGroupF]⟩

theorem Laws.RoundTrip.ldVxMem (x : Reg) : Laws.RoundTrip.Statement (.ldVxMem x) :=
  ⟨by simp [Instr.wellFormed, Instr.operands, Operand.fits_reg_x],
    by simp [encodeWord, decodeWord, decodeGroupF]⟩

/-- Every instruction is well formed: its operands have the widths of their fields. -/
theorem Laws.RoundTrip.wellFormed_all (i : Instr) : i.wellFormed = true := by
  cases i <;> simp [Instr.wellFormed, Instr.operands, Operand.fits_reg_x, Operand.fits_reg_y,
    Operand.fits_nibble, Operand.fits_byte, Operand.fits_addr]

end Sys2Proof
end

