-- ==== Sys2Proof/Laws/Step.lean ====
section
/-! SUPPORT. What an instruction and a tick can do, said once: every instruction answers a next state that
either took a fault or changed only the parts its kind names; every tick is one of five cases. -/

namespace Sys2Proof.Machine

/-! ### The execute step -/

/-- The parts of the state that an instruction of the kind may change when it raises no fault (10_state.md
R20–R36). -/
def mayChange : Instr → List Part
  | .cls => [.disp, .pc]
  | .ret | .call _ => [.pc, .sp, .stack]
  | .jp _ | .jpV0 _ | .seByte .. | .sneByte .. | .seReg .. | .sneReg .. | .skp _ | .sknp _ => [.pc]
  | .ldByte .. | .addByte .. | .ldReg .. | .orReg .. | .andReg .. | .xorReg .. | .addReg .. | .subReg ..
  | .shr .. | .subnReg .. | .shl .. | .rnd .. | .ldVxDt _ | .ldVxK _ | .ldVxMem _ => [.v, .pc]
  | .ldI _ | .addI _ | .ldF _ => [.i, .pc]
  | .drw .. => [.v, .disp, .pc]
  | .ldDtVx _ => [.dt, .pc]
  | .ldStVx _ => [.st, .pc]
  | .ldB _ | .ldMemVx _ => [.mem, .pc]

/-- What `keyOperand` can answer (45_input.md R151). -/
theorem keyOperand_cases (b : Byte) :
    (b.toNat ≤ 15 ∧ keyOperand b = .ok b.toNat) ∨ (15 < b.toNat ∧ keyOperand b = .error .keyIndexOutOfRange) := by
  by_cases h : b.toNat ≤ 15
  · exact .inl ⟨h, by simp [keyOperand, h]⟩
  · exact .inr ⟨by omega, by simp [keyOperand]; omega⟩

/-- What `lowestKey` can answer (45_input.md R153). -/
theorem lowestKey_cases (keys : BitVec 16) :
    (keys = 0#16 ∧ lowestKey keys = none) ∨
      ∃ k, k ≤ 15 ∧ keys ≠ 0#16 ∧ lowestKey keys = some k ∧ keys.getLsbD (15 - k) = true ∧
        ∀ j, j < k → keys.getLsbD (15 - j) = false := by
  cases h : lowestKey keys with
  | none =>
    simp only [lowestKey, keyDown, List.find?_range_eq_none] at h
    refine .inl ⟨BitVec.eq_of_getLsbD_eq fun i hi => ?_, rfl⟩
    simpa [show 15 - (15 - i) = i by omega] using h (15 - i) (by omega)
  | some k =>
    simp only [lowestKey, keyDown, List.find?_range_eq_some, List.mem_range] at h
    refine .inr ⟨k, by omega, ?_, rfl, h.1, fun j hj => by simpa using h.2.2 j hj⟩
    rintro rfl
    simp at h

/-- Every instruction answers a next state: it takes a fault, or it changes only the parts its kind
names. -/
theorem exec_cases (i : Instr) (s : State) :
    ∃ t, exec i s = .next t ∧ ((∃ f, t = s.raise f) ∨ (t.fault = s.fault ∧ Frame (mayChange i) s t)) := by
  cases i with
  | call nnn =>
    rcases push_cases s (s.pc + 2#16) with ⟨-, h⟩ | ⟨hs, h⟩
    · refine ⟨_, by rw [exec, execCall, h]; rfl, ?_⟩
      exact .inl ⟨_, rfl⟩
    · refine ⟨_, by rw [exec, execCall, h]; rfl, ?_⟩
      exact .inr ⟨rfl, by simp [frame_iff, mayChange]⟩
  | ret =>
    rcases pop_cases s with ⟨-, h⟩ | ⟨hs, hl, h⟩
    · refine ⟨_, by rw [exec, execRet, h]; rfl, ?_⟩
      exact .inl ⟨_, rfl⟩
    · refine ⟨_, by rw [exec, execRet, h]; rfl, ?_⟩
      exact .inr ⟨rfl, by simp [frame_iff, mayChange]⟩
  | skp x =>
    rcases keyOperand_cases (s.reg x) with ⟨-, h⟩ | ⟨-, h⟩
    · refine ⟨_, by rw [exec, execSkp, h]; rfl, ?_⟩
      exact .inr ⟨rfl, by simp [frame_iff, mayChange]⟩
    · refine ⟨_, by rw [exec, execSkp, h]; rfl, ?_⟩
      exact .inl ⟨_, rfl⟩
  | sknp x =>
    rcases keyOperand_cases (s.reg x) with ⟨-, h⟩ | ⟨-, h⟩
    · refine ⟨_, by rw [exec, execSknp, h]; rfl, ?_⟩
      exact .inr ⟨rfl, by simp [frame_iff, mayChange]⟩
    · refine ⟨_, by rw [exec, execSknp, h]; rfl, ?_⟩
      exact .inl ⟨_, rfl⟩
  | drw x y n =>
    rcases memRead_cases s.mem s.indexAddress n.toNat with ⟨-, h⟩ | ⟨-, -, h⟩
    · refine ⟨_, by rw [exec, execDrw, h]; rfl, ?_⟩
      exact .inr ⟨rfl, by simp [frame_iff, mayChange]⟩
    · refine ⟨_, by rw [exec, execDrw, h]; rfl, ?_⟩
      exact .inl ⟨_, rfl⟩
  | ldVxMem x =>
    rcases memRead_cases s.mem s.indexAddress (blockLength x) with ⟨-, h⟩ | ⟨-, -, h⟩
    · refine ⟨_, by rw [exec, execLdVxMem, h]; rfl, ?_⟩
      exact .inr ⟨by simp, by simp [frame_iff, mayChange]⟩
    · refine ⟨_, by rw [exec, execLdVxMem, h]; rfl, ?_⟩
      exact .inl ⟨_, rfl⟩
  | ldB x =>
    rcases memWrite_cases s.mem s.indexAddress (bcdDigits (s.reg x)) with ⟨-, h⟩ | ⟨-, -, h⟩
    · refine ⟨_, by rw [exec, execLdB, h]; rfl, ?_⟩
      exact .inr ⟨rfl, by simp [frame_iff, mayChange]⟩
    · refine ⟨_, by rw [exec, execLdB, h]; rfl, ?_⟩
      exact .inl ⟨_, rfl⟩
  | ldMemVx x =>
    rcases memWrite_cases s.mem s.indexAddress (s.firstRegs x) with ⟨-, h⟩ | ⟨-, -, h⟩
    · refine ⟨_, by rw [exec, execLdMemVx, h]; rfl, ?_⟩
      exact .inr ⟨rfl, by simp [frame_iff, mayChange]⟩
    · refine ⟨_, by rw [exec, execLdMemVx, h]; rfl, ?_⟩
      exact .inl ⟨_, rfl⟩
  | ldVxK x =>
    refine ⟨_, rfl, .inr ?_⟩
    cases lowestKey s.keys <;> exact ⟨rfl, by simp [frame_iff, mayChange]⟩
  | _ => exact ⟨_, rfl, .inr ⟨rfl, by simp [frame_iff, mayChange]⟩⟩

/-- The same, of a given answer. -/
theorem exec_frame {i : Instr} {s t : State} (h : exec i s = .next t) :
    (∃ f, t = s.raise f) ∨ (t.fault = s.fault ∧ Frame (mayChange i) s t) := by
  obtain ⟨u, hu, hc⟩ := exec_cases i s
  rw [hu] at h
  cases h
  exact hc

/-! ### One tick -/

theorem State.idle_frame (s : State) : Frame [.env] s s.idle := by
  simp [frame_iff, State.idle]

theorem status_eq_running {s : State} {pc : Word} :
    s.status = .running pc ↔ pc = s.pc ∧ s.fault = none ∧ s.pc.toNat < 0x200 + s.plen.val := by
  unfold State.status State.atEnd
  cases s.fault with
  | some f => simp
  | none =>
    simp only [Config.progBase, decide_eq_true_eq]
    by_cases h : 0x200 + s.plen.val ≤ s.pc.toNat
    · simp [h]
    · simp [h, Nat.lt_of_not_le h, eq_comm]

theorem status_eq_ended {s : State} :
    s.status = .ended ↔ s.fault = none ∧ 0x200 + s.plen.val ≤ s.pc.toNat := by
  unfold State.status State.atEnd
  cases s.fault with
  | some f => simp
  | none => simp [Config.progBase]

theorem status_eq_faulted {s : State} {f : Fault} : s.status = .faulted f ↔ s.fault = some f := by
  unfold State.status
  cases s.fault with
  | some g => simp
  | none => cases s.atEnd <;> simp

/-- A state that fetches is running. -/
theorem Fetches.status {s : State} {w : Word} (h : Fetches s w) : s.status = .running s.pc :=
  status_eq_running.mpr ⟨rfl, h.1, h.2.1⟩

/-- The status reads FAULT, PC and PLEN alone. -/
theorem status_congr {s t : State} (hf : t.fault = s.fault) (hp : t.pc = s.pc) (hl : t.plen = s.plen) :
    t.status = s.status := by
  unfold State.status State.atEnd
  rw [hf, hp, hl]

/-- What a tick outputs that began in a running state (R38 step 8). -/
theorem tickOutput_of_running {s : State} {pc : Word} (h : s.status = .running pc) (t : State) :
    tickOutput s t = match t.fault with
      | some f => .faulted f
      | none => .running t.pc := by
  cases hf : t.fault <;> simp only [tickOutput, h, hf]

/-- What a tick outputs that began in a stopped state (R38 steps 1 and 2). -/
theorem tickOutput_of_stopped {s : State} (h : ∀ pc, s.status ≠ .running pc) (t : State) :
    tickOutput s t = s.status := by
  unfold tickOutput
  split
  · rename_i pc hpc
    exact absurd hpc (h pc)
  · rfl

/-- A faulted machine is idle (R38 step 1). -/
theorem step_of_fault {s : State} {f : Fault} (h : s.fault = some f) : step s = .next s.idle := by
  simp [step, State.status, h]

/-- A machine at the end of its program is idle (R38 step 2). -/
theorem step_of_end {s : State} (h : s.fault = none) (he : 0x200 + s.plen.val ≤ s.pc.toNat) :
    step s = .next s.idle := by
  simp [step, State.status, State.atEnd, h, he]

/-- A fetch past the end of memory faults (R38 step 3). -/
theorem step_of_fetch_fault {s : State} (h : s.fault = none) (hp : s.pc.toNat < 0x200 + s.plen.val)
    (hm : 4096 ≤ s.pc.toNat + 1) : step s = .next (s.raise .fetchOutOfRange).nextInput := by
  rw [step, status_eq_running.mpr ⟨rfl, h, hp⟩]
  simp only [State.executeTick, State.fetch, Config.memSize, if_neg (Nat.not_lt.mpr hm)]

/-- A running machine executes the word at PC (R38 steps 3 to 7). -/
theorem step_of_fetches {s : State} {w : Word} (h : Fetches s w) : step s = afterExec (execWord w s) := by
  obtain ⟨hf, hp, hm, rfl⟩ := h
  simp only [Config.progBase, Config.memSize] at hp hm
  rw [step, status_eq_running.mpr ⟨rfl, hf, hp⟩]
  simp [State.executeTick, State.fetch, Config.memSize, hm]

/-- A running machine at an unknown word (R108). -/
theorem step_of_unknown {s : State} {w : Word} (h : Fetches s w) (hd : decodeWord w = none) :
    step s = .next s.timerStep.nextInput := by
  rw [step_of_fetches h, execWord, hd]
  simp [execUnknown, afterExec, State.runTimers, h.1]

/-- Every tick is idle, a fetch fault, an unknown word, an instruction's fault, or an instruction. -/
theorem step_cases (s : State) :
    (step s = .next s.idle ∧ ∃ f, s.fault = some f) ∨
    (step s = .next s.idle ∧ s.fault = none ∧ 0x200 + s.plen.val ≤ s.pc.toNat) ∨
    (step s = .next (s.raise .fetchOutOfRange).nextInput ∧ s.fault = none ∧
      s.pc.toNat < 0x200 + s.plen.val ∧ 4096 ≤ s.pc.toNat + 1) ∨
    (∃ w, Fetches s w ∧ decodeWord w = none ∧ step s = .next s.timerStep.nextInput) ∨
    (∃ w i f, Fetches s w ∧ decodeWord w = some i ∧ exec i s = .next (s.raise f) ∧
      step s = .next (s.raise f).nextInput) ∨
    (∃ w i t, Fetches s w ∧ decodeWord w = some i ∧ exec i s = .next t ∧ t.fault = none ∧
      Frame (mayChange i) s t ∧ step s = .next t.timerStep.nextInput) := by
  cases hf : s.fault with
  | some f => exact .inl ⟨step_of_fault hf, f, rfl⟩
  | none =>
    refine .inr ?_
    by_cases he : 0x200 + s.plen.val ≤ s.pc.toNat
    · exact .inl ⟨step_of_end hf he, rfl, he⟩
    refine .inr ?_
    by_cases hm : 4096 ≤ s.pc.toNat + 1
    · exact .inl ⟨step_of_fetch_fault hf (by omega) hm, rfl, by omega, hm⟩
    refine .inr ?_
    have hw : Fetches s _ := ⟨hf, by simp only [Config.progBase]; omega, by simp only [Config.memSize]; omega, rfl⟩
    have hstep := step_of_fetches hw
    cases hd : decodeWord (wordOfBytes (s.mem.read s.pc.toNat) (s.mem.read (s.pc.toNat + 1))) with
    | none =>
      refine .inl ⟨_, hw, hd, ?_⟩
      rw [hstep, execWord, hd]
      simp [execUnknown, afterExec, State.runTimers, hf]
    | some i =>
      refine .inr ?_
      obtain ⟨t, ht, h⟩ := exec_cases i s
      rcases h with ⟨f, rfl⟩ | ⟨htf, hfr⟩
      · refine .inl ⟨_, i, f, hw, hd, ht, ?_⟩
        rw [hstep, execWord, hd]
        simp [ht, afterExec, State.runTimers]
      · refine .inr ⟨_, i, t, hw, hd, ht, htf.trans hf, hfr, ?_⟩
        rw [hstep, execWord, hd]
        simp [ht, afterExec, State.runTimers, htf, hf]

end Sys2Proof.Machine
end

