-- ==== Sys2Proof/Tests/Slice0.lean ====
section
/-! SUPPORT. The tests: ill-formed operands refused, words written out from the encodings, one tick of each
instruction on the vectors of spec/95_test_vectors.md (their ids stand in the docstrings), and for every
statement with hypotheses a state and operands that meet them. -/

namespace Sys2Proof.Tests

set_option Elab.async false

open Sys2Proof Sys2Proof.Machine

/-! ### Well-formedness refuses what does not fit its field (R71) -/

theorem test_wellFormed_refuses_register_16 : Operand.fits ⟨.x, 16⟩ = false ∧ Operand.fits ⟨.y, 16⟩ = false := by
  decide

theorem test_wellFormed_refuses_height_16 : Operand.fits ⟨.n, 16⟩ = false := by decide

theorem test_wellFormed_refuses_byte_256 : Operand.fits ⟨.kk, 256⟩ = false := by decide

theorem test_wellFormed_refuses_address_4096 : Operand.fits ⟨.nnn, 4096⟩ = false := by decide

theorem test_wellFormed_takes_the_largest :
    [Operand.fits ⟨.x, 15⟩, Operand.fits ⟨.y, 15⟩, Operand.fits ⟨.n, 15⟩, Operand.fits ⟨.kk, 255⟩,
      Operand.fits ⟨.nnn, 4095⟩].all id = true := by decide

/-! ### Decoding: words of spec/95 2.1, written out from R73–R79 -/

theorem test_decode_group0 :
    decodeWord 0x00E0#16 = some .cls ∧ decodeWord 0x00EE#16 = some .ret ∧ decodeWord 0x0000#16 = none ∧
    decodeWord 0x00E1#16 = none ∧ decodeWord 0x0123#16 = none ∧ decodeWord 0x00FE#16 = none := by decide

theorem test_decode_addresses :
    decodeWord 0x1ABC#16 = some (.jp 0xABC#12) ∧ decodeWord 0x2ABC#16 = some (.call 0xABC#12) ∧
    decodeWord 0xA123#16 = some (.ldI 0x123#12) ∧ decodeWord 0xB123#16 = some (.jpV0 0x123#12) := by decide

theorem test_decode_literals :
    decodeWord 0x3A42#16 = some (.seByte 10 0x42#8) ∧ decodeWord 0x4A42#16 = some (.sneByte 10 0x42#8) ∧
    decodeWord 0x6A42#16 = some (.ldByte 10 0x42#8) ∧ decodeWord 0x7A42#16 = some (.addByte 10 0x42#8) ∧
    decodeWord 0xC10F#16 = some (.rnd 1 0x0F#8) := by decide

theorem test_decode_register_skips :
    decodeWord 0x5120#16 = some (.seReg 1 2 0#4) ∧ decodeWord 0x5121#16 = some (.seReg 1 2 1#4) ∧
    decodeWord 0x9120#16 = some (.sneReg 1 2 0#4) ∧ decodeWord 0x912F#16 = some (.sneReg 1 2 0xF#4) := by decide

theorem test_decode_group8 :
    decodeWord 0x8120#16 = some (.ldReg 1 2) ∧ decodeWord 0x8121#16 = some (.orReg 1 2) ∧
    decodeWord 0x8122#16 = some (.andReg 1 2) ∧ decodeWord 0x8123#16 = some (.xorReg 1 2) ∧
    decodeWord 0x8124#16 = some (.addReg 1 2) ∧ decodeWord 0x8125#16 = some (.subReg 1 2) ∧
    decodeWord 0x8126#16 = some (.shr 1 2) ∧ decodeWord 0x8127#16 = some (.subnReg 1 2) ∧
    decodeWord 0x812E#16 = some (.shl 1 2) ∧ decodeWord 0x8128#16 = none ∧ decodeWord 0x812D#16 = none ∧
    decodeWord 0x812F#16 = none := by decide

theorem test_decode_draw :
    decodeWord 0xD12F#16 = some (.drw 1 2 0xF#4) ∧ decodeWord 0xD120#16 = some (.drw 1 2 0#4) := by decide

theorem test_decode_groupE :
    decodeWord 0xE19E#16 = some (.skp 1) ∧ decodeWord 0xE1A1#16 = some (.sknp 1) ∧
    decodeWord 0xE1A0#16 = none ∧ decodeWord 0xE100#16 = none ∧ decodeWord 0xE19F#16 = none := by decide

theorem test_decode_groupF :
    decodeWord 0xF107#16 = some (.ldVxDt 1) ∧ decodeWord 0xF10A#16 = some (.ldVxK 1) ∧
    decodeWord 0xF115#16 = some (.ldDtVx 1) ∧ decodeWord 0xF118#16 = some (.ldStVx 1) ∧
    decodeWord 0xF11E#16 = some (.addI 1) ∧ decodeWord 0xF129#16 = some (.ldF 1) ∧
    decodeWord 0xF133#16 = some (.ldB 1) ∧ decodeWord 0xF155#16 = some (.ldMemVx 1) ∧
    decodeWord 0xF165#16 = some (.ldVxMem 1) ∧ decodeWord 0xF012#16 = none ∧ decodeWord 0xF1FF#16 = none := by
  decide

/-- The high byte comes first (R56), the bytes after the word are left, and what is no word or no instruction
is refused by name. -/
theorem test_decode_bytes :
    decode [0x12#8, 0xE0#8, 0x77#8] = .ok (.jp 0x2E0#12, [0x77#8]) ∧ decode [0x12#8] = .error .truncated ∧
    decode [0xF0#8, 0x12#8] = .error (.unknown 0xF012#16) := by decide

theorem test_decodeTableWord : decodeTableWord 16 0x12E0 = some (.jp 0x2E0#12) := by decide

/-! ### One tick -/

/-- The state of spec/95: after `init`, PLEN = 3584 and the word at PC. -/
def start (w : Nat) : State := { State.reset with plen := 3584 }.withFetchWord 16 w

/-- The state after one tick. -/
def after (s : State) : State :=
  match step s with
  | .next t => t
  | _ => s

/-- With a register set. -/
def withV (s : State) (x : Reg) (b : Byte) : State := s.setReg x b

/-- With the tick's inputs. -/
def withInput (s : State) (keys : BitVec 16) (rand : BitVec 8) : State := { s with inputs := [⟨keys, rand⟩] }

/-- CF1 -/
theorem test_jp : (after (start 0x12E0)).pc = 0x2E0#16 := by decide +kernel

/-- CF4, CF5 -/
theorem test_call :
    (after { start 0x2300 with sp := 15 }).stack[15] = 0x202#16 ∧ (after { start 0x2300 with sp := 15 }).sp = 16 ∧
    (after { start 0x2300 with sp := 16 }).fault = some .stackOverflow ∧
    (after { start 0x2300 with sp := 16 }).pc = 0x200#16 := by decide +kernel

/-- CF6, CF7 -/
theorem test_ret :
    (after ((start 0x00EE).setStack 1 (State.reset.stack.set 0 0x206#16))).pc = 0x206#16 ∧
    (after ((start 0x00EE).setStack 1 (State.reset.stack.set 0 0x206#16))).stack[0] = 0x206#16 ∧
    (after (start 0x00EE)).fault = some .stackUnderflow ∧ (after (start 0x00EE)).acc = 0 := by decide +kernel

/-- CF8, CF9 -/
theorem test_seByte :
    (after (withV (start 0x3042) 0 0x42#8)).pc = 0x204#16 ∧ (after (withV (start 0x3042) 0 0x41#8)).pc = 0x202#16 := by
  decide +kernel

/-- CF10 -/
theorem test_sneByte : (after (withV (start 0x4042) 0 0x42#8)).pc = 0x202#16 := by decide +kernel

/-- CF11 -/
theorem test_seReg : (after (withV (withV (start 0x5121) 1 7#8) 2 7#8)).pc = 0x204#16 := by decide +kernel

/-- CF12 -/
theorem test_sneReg : (after (withV (withV (start 0x9120) 1 7#8) 2 8#8)).pc = 0x204#16 := by decide +kernel

/-- CF14 -/
theorem test_jpV0 :
    (after (withV (start 0xBFFF) 0 0xFF#8)).pc = 0x10FE#16 ∧
    (after (withV (start 0xBFFF) 0 0xFF#8)).status = .ended := by decide +kernel

/-- CF15, S14 -/
theorem test_unknown :
    (after (start 0xF012)).pc = 0x200#16 ∧ (after (start 0xF012)).acc = 1 ∧ (after (start 0x0000)).pc = 0x200#16 := by
  decide +kernel

/-- AL1 -/
theorem test_ldByte : (after (start 0x6342)).reg 3 = 0x42#8 := by decide +kernel

/-- AL2 -/
theorem test_addByte :
    (after (withV (withV (start 0x70FF) 0 2#8) 15 0x55#8)).reg 0 = 1#8 ∧
    (after (withV (withV (start 0x70FF) 0 2#8) 15 0x55#8)).reg 15 = 0x55#8 := by decide +kernel

/-- AL3 -/
theorem test_ldReg : (after (withV (start 0x8120) 2 0x7A#8)).reg 1 = 0x7A#8 := by decide +kernel

/-- AL4 -/
theorem test_orReg : (after (withV (withV (start 0x8121) 1 0xF0#8) 2 0x0C#8)).reg 1 = 0xFC#8 := by decide +kernel

/-- AL5 -/
theorem test_andReg : (after (withV (withV (start 0x8122) 1 0xF0#8) 2 0x3C#8)).reg 1 = 0x30#8 := by decide +kernel

/-- AL6 -/
theorem test_xorReg : (after (withV (withV (start 0x8123) 1 0xF0#8) 2 0x3C#8)).reg 1 = 0xCC#8 := by decide +kernel

/-- S2 -/
theorem test_addReg :
    (after (withV (withV (start 0x8014) 0 0xF2#8) 1 0xF7#8)).reg 0 = 0xE9#8 ∧
    (after (withV (withV (start 0x8014) 0 0xF2#8) 1 0xF7#8)).reg 15 = 1#8 := by decide +kernel

/-- AL18, AL19 -/
theorem test_addReg_with_F :
    (after (withV (withV (start 0x8F14) 15 0xFF#8) 1 2#8)).reg 15 = 1#8 ∧
    (after (withV (withV (start 0x81F4) 1 0x10#8) 15 0xF5#8)).reg 1 = 5#8 := by decide +kernel

/-- S4 -/
theorem test_subReg :
    (after (withV (withV (start 0x8015) 0 0xEE#8) 1 0xF7#8)).reg 0 = 0xF7#8 ∧
    (after (withV (withV (start 0x8015) 0 0xEE#8) 1 0xF7#8)).reg 15 = 0#8 := by decide +kernel

/-- AL9 -/
theorem test_subReg_equal : (after (withV (withV (start 0x8015) 0 0x42#8) 1 0x42#8)).reg 15 = 0#8 := by
  decide +kernel

/-- AL13, S5 -/
theorem test_shr :
    (after (withV (withV (start 0x8016) 0 1#8) 1 0xFF#8)).reg 0 = 0#8 ∧
    (after (withV (start 0x8006) 0 0x43#8)).reg 0 = 0x21#8 ∧
    (after (withV (start 0x8006) 0 0x43#8)).reg 15 = 1#8 := by decide +kernel

/-- AL10, AL12 -/
theorem test_subnReg :
    (after (withV (withV (start 0x8017) 0 2#8) 1 0xF0#8)).reg 0 = 0xEE#8 ∧
    (after (withV (withV (start 0x8017) 0 2#8) 1 0xF0#8)).reg 15 = 1#8 ∧
    (after (withV (withV (start 0x8017) 0 0x42#8) 1 0x42#8)).reg 15 = 0#8 := by decide +kernel

/-- S6, AL16 -/
theorem test_shl :
    (after (withV (start 0x800E) 0 0xA2#8)).reg 0 = 0x44#8 ∧ (after (withV (start 0x800E) 0 0xA2#8)).reg 15 = 1#8 ∧
    (after (withV (start 0x800E) 0 0x7F#8)).reg 15 = 0#8 := by decide +kernel

/-- AL20 -/
theorem test_rnd : (after (withInput (start 0xC50F) 0 0xA5#8)).reg 5 = 5#8 := by decide +kernel

/-- IM1 -/
theorem test_ldI : (after (start 0xA300)).i = 0x300#16 := by decide +kernel

/-- IM2, IM3 -/
theorem test_addI :
    (after { withV (start 0xF01E) 0 2#8 with i := 0xFFFF }).i = 1#16 ∧
    (after { withV (start 0xF01E) 0 1#8 with i := 0x0FFF }).i = 0x1000#16 := by decide +kernel

/-- IM4 -/
theorem test_ldF : (after (withV (start 0xF029) 0 0x1A#8)).i = 50#16 := by decide +kernel

/-- S11 -/
theorem test_ldB :
    (after { withV (start 0xF033) 0 242#8 with i := 0x250 }).mem.readSpan 0x250 4 = [2, 4, 2, 0] := by decide +kernel

/-- IM9 -/
theorem test_ldB_at_the_top :
    (after { withV (start 0xF033) 0 1#8 with i := 0xFFE }).fault = some .memoryOutOfRange ∧
    (after { withV (start 0xF033) 0 1#8 with i := 0xFFE }).mem = (start 0xF033).mem := by decide +kernel

/-- S12 -/
theorem test_ldMemVx :
    (after { withV (withV (withV (withV (start 0xF255) 0 1#8) 1 2#8) 2 3#8) 3 4#8 with i := 0x300 }).mem.readSpan 0x300 4 =
      [1, 2, 3, 0] := by decide +kernel

/-- IM12 -/
theorem test_ldMemVx_at_the_top : (after { start 0xFF55 with i := 0xFF1 }).fault = some .memoryOutOfRange := by
  decide +kernel

/-- IM11 -/
theorem test_ldVxMem :
    (after (withV (start 0xF365) 4 7#8)).v.toList.take 5 = [0xF0, 0x90, 0x90, 0x90, 7] := by decide +kernel

/-- IM14 -/
theorem test_ldVxMem_at_the_top : (after { start 0xF065 with i := 0x1000 }).fault = some .memoryOutOfRange := by
  decide +kernel

/-- TM1 -/
theorem test_ldVxDt : (after { start 0xF007 with dt := 0x33 }).reg 0 = 0x33#8 := by decide +kernel

/-- TM2, TM3 -/
theorem test_ldDtVx :
    (after (withV (start 0xF015) 0 5#8)).dt = 5#8 ∧ (after { withV (start 0xF015) 0 5#8 with acc := 8 }).dt = 4#8 := by
  decide +kernel

/-- TM5 -/
theorem test_ldStVx : (after (withV (start 0xF118) 1 0x20#8)).st = 0x20#8 := by decide +kernel

/-- TM6 -/
theorem test_timerStep_saturates :
    (after { start 0x6000 with acc := 8, dt := 1 }).dt = 0#8 ∧ (after { start 0x6000 with acc := 8 }).st = 0#8 ∧
    (after { start 0x6000 with acc := 8 }).acc = 0 := by decide +kernel

/-- DR1 -/
theorem test_cls :
    (after { start 0x00E0 with disp := Vector.replicate 256 0xFF#8 }).disp = Vector.replicate 256 0#8 := by
  decide +kernel

/-- S8, from the framebuffer of S7 -/
theorem test_drw_collides :
    let s := after (withV (withV (start 0xD015) 0 0x10#8) 1 0x10#8)
    let t := after { s with pc := 0x200, i := 5 }
    s.reg 15 = 0#8 ∧ t.reg 15 = 1#8 ∧
    [t.disp[130], t.disp[138], t.disp[146], t.disp[154], t.disp[162]] = [0xD0, 0xF0, 0xB0, 0xB0, 0x80] := by
  decide +kernel

/-- DR2 -/
theorem test_drw_wraps :
    let s := after { withV (withV (start 0xD012) 0 60#8) 1 31#8 with
      i := 0x300, mem := (start 0xD012).mem.writeSpan 0x300 [0xFF, 0x81] }
    [s.disp[255], s.disp[248], s.disp[7], s.disp[0]] = [0x0F, 0xF0, 0x08, 0x10] ∧ s.reg 15 = 0#8 := by
  decide +kernel

/-- IN1, IN4 -/
theorem test_skp :
    (after (withInput (withV (start 0xE19E) 1 5#8) 0x0400 0)).pc = 0x204#16 ∧
    (after (withInput (withV (start 0xE19E) 1 0x10#8) 0xFFFF 0)).fault = some .keyIndexOutOfRange := by decide +kernel

/-- IN2, IN3 -/
theorem test_sknp :
    (after (withInput (withV (start 0xE1A1) 1 5#8) 0x0400 0)).pc = 0x202#16 ∧
    (after (withInput (withV (start 0xE1A1) 1 5#8) 0 0)).pc = 0x204#16 := by decide +kernel

/-- IN5, IN8 -/
theorem test_ldVxK :
    (after (withInput (start 0xF30A) 0x0401 0)).reg 3 = 5#8 ∧ (after (withInput (start 0xF30A) 0 0)).pc = 0x200#16 ∧
    (after (withInput (start 0xF30A) 0 0)).acc = 1 := by decide +kernel

/-- SQ1, SQ4 -/
theorem test_fetch_fault :
    (after { start 0x6000 with pc := 0xFFF }).fault = some .fetchOutOfRange ∧
    (after { start 0x6000 with fault := some .memoryOutOfRange }).pc = 0x200#16 := by decide +kernel

/-- SQ2, SQ3 -/
theorem test_end_of_program :
    (after ({ start 0 with pc := 0xFFE }.withFetchWord 16 0x6105)).status = .ended ∧
    { start 0x6000 with plen := 4, pc := 0x204 }.status = .ended := by decide +kernel

/-- The codes of R161. -/
theorem test_fault_codes :
    [Fault.stackOverflow, .stackUnderflow, .memoryOutOfRange, .fetchOutOfRange, .keyIndexOutOfRange].map Fault.code =
      [1, 2, 3, 4, 5] ∧ State.reset.faultCode = 0#3 := by decide

/-- SQ5, SQ6, SQ7, DR9 -/
theorem test_transactions :
    Block.reset ⟨.ticked, { State.reset with fault := some .memoryOutOfRange }⟩ = .error .resetWhileFaulted ∧
    Block.powerOff.init.load [] = .ok (.error, Block.powerOff.init) ∧
    Block.pixel 2048 Block.powerOff.init = .error .pixelIndexOutOfRange ∧
    Block.tick ⟨0, 0⟩ Block.powerOff = .error .notInitialised := by decide +kernel

/-! ### What the host asks: a word placed after reset is the next to run -/

theorem test_withFetchWord :
    (after (State.reset.withFetchWord 16 0x6342)).reg 3 = 0x42#8 ∧
    (State.reset.withFetchWord 16 0x6342).mem.wf = true := by decide +kernel

/-! ### Witnesses: the hypotheses of each statement can be met, clause by clause at the boundaries -/

theorem test_witness_EncodeOfDecodeIsTheWord : decodeWord 0xD12F#16 = some (.drw 1 2 0xF#4) := by decide

theorem test_witness_DispatchAgreesWithTheOpcodeTable :
    (∃ r ∈ opcodeTable, r.covers 0x812E#16 = true ∧ r.mnemonic = "SHL_Vx____Vy") ∧
    opcodeTable.all (fun r => !r.covers 0x812F#16) = true := by decide +kernel

/-- With the timer step, and with a fault, at the last address that is fetched. -/
theorem test_witness_StepRunsTheDecodedInstruction :
    let s := { start 0 with pc := 0xFFE }.withFetchWord 16 0x00EE
    s.fault = none ∧ s.pc.toNat < 0x200 + s.plen.val ∧ s.pc.toNat + 1 < 4096 ∧
    decode [s.mem.read s.pc.toNat, s.mem.read (s.pc.toNat + 1)] = .ok (.ret, []) ∧
    (∃ t, exec .ret s = .next t ∧ t.fault ≠ none) ∧ ∃ t, exec .ret { s with sp := 1 } = .next t ∧ t.fault = none :=
  ⟨by decide, by decide, by decide, rfl, ⟨_, rfl, by decide⟩, ⟨_, rfl, by decide⟩⟩

/-- Ended exactly at the end, Running one before it, Faulted. -/
theorem test_witness_StoppedRunsNeverMove :
    { start 0x6000 with plen := 4, pc := 0x204 }.status = .ended ∧
    { start 0x6000 with plen := 4, pc := 0x203 }.status = .running 0x203 ∧
    { start 0x6000 with fault := some .stackOverflow }.status = .faulted .stackOverflow := by decide +kernel

theorem test_witness_FaultIsPreciseAndTerminal :
    (start 0x00EE).fault = none ∧ ∃ t, step (start 0x00EE) = .next t ∧ t.fault = some .stackUnderflow :=
  ⟨by decide, after (start 0x00EE), rfl, by decide +kernel⟩

theorem test_witness_FetchFaultsOnlyAtTheTopOfMemory :
    (start 0x6000).fault = none ∧ (0xFFE#16).toNat < 0x200 + (start 0x6000).plen.val ∧
    (0xFFF#16).toNat < 0x200 + (start 0x6000).plen.val := by decide +kernel

/-- Each cause just met and just missed. -/
theorem test_witness_EachFaultHasItsOneCause :
    (∀ p ∈ [(15, false), (16, true)], ∃ t, exec (.call 0x300) { start 0 with sp := p.1 } = .next t ∧
      t.fault.isSome = p.2) ∧
    (∀ p ∈ [(0, true), (1, false)], ∃ t, exec .ret { start 0 with sp := p.1 } = .next t ∧ t.fault.isSome = p.2) ∧
    (∀ p ∈ [(0xFF1#16, false), (0xFF2#16, true)], ∃ t, exec (.drw 0 1 15) { start 0 with i := p.1 } = .next t ∧
      t.fault.isSome = p.2) ∧
    (∀ p ∈ [(0xFFD#16, false), (0xFFE#16, true)], ∃ t, exec (.ldB 0) { start 0 with i := p.1 } = .next t ∧
      t.fault.isSome = p.2) ∧
    (∀ p ∈ [(0xFF0#16, false), (0xFF1#16, true)], ∃ t, exec (.ldVxMem 15) { start 0 with i := p.1 } = .next t ∧
      t.fault.isSome = p.2) ∧
    (∀ p ∈ [(15#8, false), (16#8, true)], ∃ t, exec (.skp 1) (withInput (withV (start 0) 1 p.1) 0 0) = .next t ∧
      t.fault.isSome = p.2) := by
  refine ⟨?_, ?_, ?_, ?_, ?_, ?_⟩ <;>
    (simp only [List.forall_mem_cons, List.not_mem_nil, false_imp_iff, implies_true, and_true]
     exact ⟨⟨_, rfl, by decide +kernel⟩, ⟨_, rfl, by decide +kernel⟩⟩)

theorem test_witness_UnknownWordHangsWhileTimersRun :
    Fetches (start 0xF012) 0xF012#16 ∧ decodeWord 0xF012#16 = none :=
  ⟨⟨by decide, by decide, by decide, by decide⟩, by decide⟩

theorem test_witness_KeyWaitStallsUntilAKeyIsDown :
    let s := { start 0xF30A with inputs := [⟨0, 1⟩, ⟨0, 2⟩, ⟨0x0401, 3⟩, ⟨0, 4⟩] }
    Fetches s (wordXKK 0xF#4 3 0x0A#8) ∧ (0x0401#16 ≠ 0#16) ∧
    s.inputs = [1#8, 2#8].map (fun r => ⟨0#16, r⟩) ++ ⟨0x0401#16, 3#8⟩ :: [⟨0#16, 4#8⟩] :=
  ⟨⟨by decide, by decide, by decide, by decide⟩, by decide, by decide⟩

/-- On the ninth tick: a timer load, and another instruction. -/
theorem test_witness_EveryExecutedTickTakesTheTimerStep :
    Fetches { start 0xF015 with acc := 8 } 0xF015#16 ∧ (after { start 0xF015 with acc := 8 }).fault = none ∧
    decodeWord 0xF015#16 = some (.ldDtVx 0) ∧ Fetches (start 0xF118) 0xF118#16 ∧
    decodeWord 0xF118#16 = some (.ldStVx 1) ∧ Fetches (start 0x6000) 0x6000#16 :=
  ⟨⟨by decide, by decide, by decide, by decide⟩, by decide +kernel, by decide,
    ⟨by decide, by decide, by decide, by decide⟩, by decide, ⟨by decide, by decide, by decide, by decide⟩⟩

theorem test_witness_TimersCountDownByAtMostOne :
    { State.reset with acc := 8 }.acc.val = 8 ∧ { State.reset with acc := 7 }.acc.val < 8 := by decide

/-- x = F and x ≠ F of the flag instructions. -/
theorem test_witness_AddAndSubtractSetVf : ((14 : Reg) ≠ 15) ∧ ((0 : Reg) ≠ 14 ∧ (0 : Reg) ≠ 15) := by decide

theorem test_witness_CallPushesTheReturnAddress :
    { State.reset with sp := 15 }.sp.val < 16 ∧ { State.reset with sp := 16 }.sp.val = 16 := by decide

theorem test_witness_ReturnPopsTheStack :
    0 < { State.reset with sp := 1 }.sp.val ∧ (0 : Fin 16).val + 1 = { State.reset with sp := 1 }.sp.val ∧
    State.reset.sp.val = 0 := by decide

theorem test_witness_ReturnResumesAfterTheCall :
    let s := { start 0x2300 with sp := 14 }
    s.sp.val < 16 ∧ ∃ t, exec (.call 0x300) s = .next t ∧
      { t with stack := t.stack.set 15 0x302#16 }.sp = t.sp ∧
      ∀ j : Fin 16, j.val < t.sp.val → (t.stack.set 15 0x302#16)[j] = t.stack[j] :=
  ⟨by decide, _, rfl, rfl, by decide +kernel⟩

/-- The last push that fits, a full stack, an empty one. -/
theorem test_witness_StackIsLastInFirstOut :
    { State.reset with sp := 14 }.sp.val + [0x202#16, 0x204#16].length ≤ 16 ∧
    { State.reset with sp := 16 }.sp.val = 16 ∧ State.reset.sp.val = 0 := by decide

theorem test_witness_BcdStoresThreeDigits :
    { State.reset with i := 0xFFD }.indexAddress + 2 < 4096 ∧
    4096 ≤ { State.reset with i := 0xFFE }.indexAddress + 2 := by decide

theorem test_witness_BlockStoreCopiesV0ToVx :
    { State.reset with i := 0xFF0 }.indexAddress + (15 : Reg).val < 4096 ∧
    4096 ≤ { State.reset with i := 0xFF1 }.indexAddress + (15 : Reg).val := by decide

theorem test_witness_BlockLoadCopiesV0ToVx :
    { State.reset with i := 0xFFF }.indexAddress + (0 : Reg).val < 4096 ∧
    4096 ≤ { State.reset with i := 0x1000 }.indexAddress + (0 : Reg).val := by decide

/-- Both stores, the first at the last place whose whole word is in memory. -/
theorem test_witness_StoredCodeIsFetchedAtOnce :
    (let s := { start 0 with pc := 0xFFC, i := 0xFFE }.withFetchWord 16 0xF055
     s.i = s.pc + 2 ∧ (∃ t, step s = .next t) ∧ Fetches s (wordXKK 0xF#4 0 0x55#8) ∧
      s.i.toNat + (0 : Reg).val < 4096 ∧ s.i.toNat + 1 < 4096) ∧
    (let s := { start 0xF133 with i := 0x202 }
     s.i = s.pc + 2 ∧ (∃ t, step s = .next t) ∧ Fetches s (wordXKK 0xF#4 1 0x33#8) ∧ s.i.toNat + 2 < 4096) :=
  ⟨⟨by decide, ⟨after ({ start 0 with pc := 0xFFC, i := 0xFFE }.withFetchWord 16 0xF055), rfl⟩,
      ⟨by decide, by decide, by decide, by decide⟩, by decide, by decide⟩,
    ⟨by decide, ⟨after { start 0xF133 with i := 0x202 }, rfl⟩, ⟨by decide, by decide, by decide, by decide⟩,
      by decide⟩⟩

theorem test_witness_CanonicalMemoriesAreEqualWhenTheyReadTheSame :
    Memory.wf [(0x200, 0x12#8), (0xFFF, 1#8)] = true := by decide

theorem test_witness_DrawXorsTheSpriteAndReportsCollision :
    (0#4).toNat = 0 ∧ { State.reset with i := 0xFF1 }.indexAddress + ((15#4).toNat - 1) < 4096 ∧
    (15#4).toNat ≠ 0 ∧ 4096 ≤ { State.reset with i := 0xFF2 }.indexAddress + ((15#4).toNat - 1) := by decide

/-- The same sprite drawn twice at S7's place. -/
theorem test_witness_DrawingTwiceRestoresTheScreen :
    let s := withV (withV (start 0xD015) 0 0x10#8) 1 0x10#8
    s.fault = none ∧ ∃ t v, exec (.drw 0 1 5) s = .next t ∧ t.fault = none ∧ t.mem = s.mem ∧ t.i = s.i ∧
      t.reg 0 = s.reg 0 ∧ t.reg 1 = s.reg 1 ∧ exec (.drw 0 1 5) t = .next v :=
  ⟨by decide, _, _, rfl, by decide +kernel, by decide +kernel, by decide +kernel, by decide +kernel,
    by decide +kernel, rfl⟩

theorem test_witness_KeySkipsTestTheKeyOfVx :
    ((withV State.reset 1 15#8).reg 1).toNat ≤ 15 ∧ 15 < ((withV State.reset 1 16#8).reg 1).toNat := by decide

theorem test_witness_KeyLoadStoresTheLowestKeyOrStalls :
    (withInput State.reset 0 0).keys = 0#16 ∧ (withInput State.reset 0x0001 0).keys ≠ 0#16 := by decide

theorem test_witness_OnlyFlagProducersWriteVfAsAFlag :
    ∃ t, exec (.ldByte 15 7#8) State.reset = .next t ∧ t.reg 15 ≠ State.reset.reg 15 := ⟨_, rfl, by decide⟩

theorem test_witness_OnlyAddToIndexLeavesTheAddressSpace :
    let s := { withV State.reset 0 1#8 with i := 0xFFF }
    ∃ t, exec (.addI 0) s = .next t ∧ t.i ≠ s.i ∧ s.i.toNat < 4096 ∧ 4096 ≤ t.i.toNat :=
  ⟨_, rfl, by decide, by decide, by decide⟩

theorem test_witness_OnlyCallAndReturnMoveTheStackPointer :
    ∃ t, exec (.call 0x300) State.reset = .next t ∧ t.sp ≠ State.reset.sp ∧ t.stack ≠ State.reset.stack :=
  ⟨_, rfl, by decide, by decide +kernel⟩

theorem test_witness_EachElementChangesOnlyByItsWriters :
    (∃ t, exec (.ldB 0) { withV State.reset 0 9#8 with i := 0x300 } = .next t ∧
      t.mem.read 0x302 ≠ State.reset.mem.read 0x302) ∧
    (∃ t, exec .cls { State.reset with disp := Vector.replicate 256 1#8 } = .next t ∧
      t.disp ≠ Vector.replicate 256 1#8) ∧
    (∃ t, exec (.ldDtVx 0) (withV State.reset 0 9#8) = .next t ∧ t.dt ≠ 0#8) ∧
    (∃ t, exec (.ldStVx 0) (withV State.reset 0 9#8) = .next t ∧ t.st ≠ 0#8) :=
  ⟨⟨_, rfl, by decide +kernel⟩, ⟨_, rfl, by decide +kernel⟩, ⟨_, rfl, by decide⟩, ⟨_, rfl, by decide⟩⟩

/-- An instruction that reads no input, with two different inputs; one that reads KEYS, with two RANDs. -/
theorem test_witness_InputsAreReadOnlyByTheirInstructions :
    (∀ x, Instr.cls ≠ .skp x ∧ Instr.cls ≠ .sknp x ∧ Instr.cls ≠ .ldVxK x) ∧ (∀ x kk, Instr.cls ≠ .rnd x kk) ∧
    (⟨5, 1⟩ : TickInput).keys = (⟨5, 2⟩ : TickInput).keys ∧ (∀ x kk, Instr.skp 1 ≠ .rnd x kk) := by
  refine ⟨?_, ?_, rfl, ?_⟩ <;> simp

/-- Two stacks that differ only at SP. -/
theorem test_witness_StaleStackEntriesAreNeverRead :
    let s := { State.reset with sp := 1 }
    ∀ j : Fin 16, j.val < s.sp.val → (s.stack.set 1 0x222#16)[j] = s.stack[j] := by decide +kernel

theorem test_witness_EveryTickKeepsTheInvariant :
    (start 0x6342).Inv ∧ (∃ t, step (start 0x6342) = .next t) ∧ Fetches (start 0x6342) 0x6342#16 :=
  ⟨⟨by decide, by decide, by decide⟩, ⟨after (start 0x6342), rfl⟩,
    ⟨by decide, by decide, by decide, by decide⟩⟩

/-- The lengths 0, 1, 3584 and 3585, and every phase. -/
theorem test_witness_LoadCopiesTheProgramOnce :
    Block.powerOff.init.phase = .ready ∧ Block.powerOff.phase = .off ∧ (⟨.loaded, State.reset⟩ : Block).phase = .loaded ∧
    (⟨.ticked, State.reset⟩ : Block).phase = .ticked ∧ ([] : List Byte).length = 0 ∧ 0 < [1#8].length ∧
    (List.replicate 3584 1#8).length ≤ 3584 ∧ 3584 < (List.replicate 3585 1#8).length :=
  ⟨rfl, rfl, rfl, rfl, rfl, by decide, Nat.le_of_eq List.length_replicate, by rw [List.length_replicate]; decide⟩

theorem test_witness_ResetRestartsInPlace :
    (⟨.ticked, State.reset⟩ : Block).phase ≠ .off ∧ State.reset.fault = none ∧
    { State.reset with fault := some .stackOverflow }.fault ≠ none := by decide

theorem test_witness_PixelQueryReadsThePackedBit : Block.powerOff.init.phase ≠ .off ∧ 2047 < 2048 ∧ 2048 ≤ 2048 := by
  decide

/-- Faulted, Ended and Running. -/
theorem test_witness_TickReportsItsStatus :
    Block.powerOff.init.phase ≠ .off ∧ { start 0 with fault := some .stackOverflow }.fault = some .stackOverflow ∧
    (State.reset.fault = none ∧ 0x200 + State.reset.plen.val ≤ State.reset.pc.toNat) ∧
    ((start 0x00EE).fault = none ∧ (start 0x00EE).pc.toNat < 0x200 + (start 0x00EE).plen.val) := by decide

end Sys2Proof.Tests
end

-- What every step keeps, and the runs that are stopped (10_state.md R33, R38).
section
namespace Sys2Proof.Machine

/-! ### Any number of ticks -/

/-- The induction on the number of ticks: what every step from a state that has it keeps, any number of
ticks keeps. -/
theorem ticks_keep {P : State → Prop} (hstep : ∀ s, P s → ∃ t, step s = .next t ∧ P t) (k : Nat) :
    ∀ s, P s → ∃ t, ticks k s = .next t ∧ P t := by
  induction k with
  | zero => exact fun s hs => ⟨s, rfl, hs⟩
  | succ k ih =>
    intro s hs
    obtain ⟨t, hst, ht⟩ := hstep s hs
    simpa only [ticks, hst] using ih t ht

/-! ### Stopped runs -/

/-- The input queue and the tick counter are no part of what the status reads. -/
theorem Frame.status_eq {s t : State} (h : Frame [.env] s t) : t.status = s.status :=
  status_congr (h .fault (by decide)) (h .pc (by decide)) (h .plen (by decide))

/-- A machine that is not Running is idle (R38 steps 1 and 2). -/
theorem step_of_stopped {s : State} (h : ∀ pc, s.status ≠ .running pc) : step s = .next s.idle := by
  cases hs : s.status with
  | running pc => exact absurd hs (h pc)
  | ended =>
    obtain ⟨hf, he⟩ := status_eq_ended.mp hs
    exact step_of_end hf he
  | faulted f => exact step_of_fault (status_eq_faulted.mp hs)

/-- Ended and Faulted are absorbing (R33): a stopped machine keeps every part of its state. -/
theorem ticks_of_stopped {s : State} (h : ∀ pc, s.status ≠ .running pc) (k : Nat) :
    ∃ t, ticks k s = .next t ∧ Frame [.env] s t := by
  refine ticks_keep (P := Frame [.env] s) (fun u hu => ?_) k s (.refl _ s)
  have hstopped : ∀ pc, u.status ≠ .running pc := fun pc => hu.status_eq ▸ h pc
  exact ⟨u.idle, step_of_stopped hstopped, hu.trans u.idle_frame⟩

/-- Settles O7: the status by its three equivalences, and absorption because a stopped machine is idle
and an idle tick leaves what the status reads. -/
theorem stoppedRunsNeverMove : Obligations.StoppedRunsNeverMove := by
  intro s k
  refine ⟨fun f => status_eq_faulted, status_eq_ended, fun pc => ?_, fun h => ?_⟩
  · rw [status_eq_running, and_comm, and_assoc]
  · obtain ⟨t, ht, hframe⟩ := ticks_of_stopped h k
    exact ⟨t, ht, hframe, hframe.status_eq⟩

end Sys2Proof.Machine
end

-- The opcode table and the two-level dispatch name one kind for every word (30_encoding.md R74–R80).
section
namespace Sys2Proof

/-! ### The fields that a row's mask fixes (R71)

`hb` says that a row's bits lie within its mask. The row's fields are written as extracts, so that they
evaluate on a literal while `opOf w`, `nOf w` and `kkOf w` stay as they are. -/

theorem and_F000_eq_iff {w b : Word} (hb : b &&& 0xF000#16 = b) :
    w &&& 0xF000#16 = b ↔ opOf w = b.extractLsb' 12 4 := by
  change _ ↔ opOf w = opOf b
  simp only [← BitVec.toNat_inj, toNat_and_F000, opOf_toNat] at hb ⊢
  omega

theorem and_F00F_eq_iff {w b : Word} (hb : b &&& 0xF00F#16 = b) :
    w &&& 0xF00F#16 = b ↔ opOf w = b.extractLsb' 12 4 ∧ nOf w = b.extractLsb' 0 4 := by
  change _ ↔ opOf w = opOf b ∧ nOf w = nOf b
  simp only [← BitVec.toNat_inj, toNat_and_F00F, opOf_toNat, nOf_toNat] at hb ⊢
  omega

theorem and_F0FF_eq_iff {w b : Word} (hb : b &&& 0xF0FF#16 = b) :
    w &&& 0xF0FF#16 = b ↔ opOf w = b.extractLsb' 12 4 ∧ kkOf w = b.extractLsb' 0 8 := by
  change _ ↔ opOf w = opOf b ∧ kkOf w = kkOf b
  simp only [← BitVec.toNat_inj, toNat_and_F0FF, opOf_toNat, kkOf_toNat] at hb ⊢
  omega

/-- The top nibble stands beside the whole word, so that a word of another group is refused by it. -/
theorem and_FFFF_eq_iff {w b : Word} : w &&& 0xFFFF#16 = b ↔ opOf w = b.extractLsb' 12 4 ∧ w = b := by
  rw [show 0xFFFF#16 = BitVec.allOnes 16 from rfl, BitVec.and_allOnes, iff_and_self]
  exact congrArg opOf

/-! ### The second level of the dispatch (R75–R78) -/

theorem decodeGroup0_eq_some_iff {w : Word} {i : Instr} :
    decodeGroup0 w = some i ↔ (w = 0x00E0#16 ∧ i = .cls) ∨ (w = 0x00EE#16 ∧ i = .ret) := by
  fun_cases decodeGroup0 <;> simp [*, eq_comm]

theorem decodeGroup8_eq_some_iff {x y : Reg} {s : Nibble} {i : Instr} :
    decodeGroup8 x y s = some i ↔
      (s = 0x0#4 ∧ i = .ldReg x y) ∨ (s = 0x1#4 ∧ i = .orReg x y) ∨ (s = 0x2#4 ∧ i = .andReg x y) ∨
      (s = 0x3#4 ∧ i = .xorReg x y) ∨ (s = 0x4#4 ∧ i = .addReg x y) ∨ (s = 0x5#4 ∧ i = .subReg x y) ∨
      (s = 0x6#4 ∧ i = .shr x y) ∨ (s = 0x7#4 ∧ i = .subnReg x y) ∨ (s = 0xE#4 ∧ i = .shl x y) := by
  fun_cases decodeGroup8 <;> simp [*, eq_comm]

theorem decodeGroupE_eq_some_iff {x : Reg} {kk : Byte} {i : Instr} :
    decodeGroupE x kk = some i ↔ (kk = 0x9E#8 ∧ i = .skp x) ∨ (kk = 0xA1#8 ∧ i = .sknp x) := by
  fun_cases decodeGroupE <;> simp [*, eq_comm]

theorem decodeGroupF_eq_some_iff {x : Reg} {kk : Byte} {i : Instr} :
    decodeGroupF x kk = some i ↔
      (kk = 0x07#8 ∧ i = .ldVxDt x) ∨ (kk = 0x0A#8 ∧ i = .ldVxK x) ∨ (kk = 0x15#8 ∧ i = .ldDtVx x) ∨
      (kk = 0x18#8 ∧ i = .ldStVx x) ∨ (kk = 0x1E#8 ∧ i = .addI x) ∨ (kk = 0x29#8 ∧ i = .ldF x) ∨
      (kk = 0x33#8 ∧ i = .ldB x) ∨ (kk = 0x55#8 ∧ i = .ldMemVx x) ∨ (kk = 0x65#8 ∧ i = .ldVxMem x) := by
  fun_cases decodeGroupF <;> simp [*, eq_comm]

/-! ### The table and the dispatch name the same kind -/

/-- A word has the fixed bits of a row named `m` exactly when it decodes to an instruction of that name.
With the rows read as tests of fields, the top nibble leaves the rows of its group on one side and the
group's decoder on the other. -/
theorem exists_row_covers_iff_decodeWord (w : Word) (m : String) :
    (∃ r ∈ opcodeTable, r.covers w = true ∧ r.mnemonic = m) ↔
      ∃ i, decodeWord w = some i ∧ i.mnemonic = m := by
  simp only [opcodeTable, opcodeRowsLow, opcodeRowsAlu, opcodeRowsHigh, List.cons_append, List.nil_append,
    List.exists_mem_cons_iff, List.not_mem_nil, false_and, exists_false, OpcodeRow.covers, beq_iff_eq,
    BitVec.ofNat_eq_ofNat, BitVec.reduceAnd, BitVec.reduceExtractLsb',
    and_F000_eq_iff, and_F00F_eq_iff, and_F0FF_eq_iff, and_FFFF_eq_iff]
  rcases decodeWord_cases w with ⟨hop, hw⟩ | ⟨hop, hw⟩ | ⟨hop, hw⟩ | ⟨hop, hw⟩ | ⟨hop, hw⟩ | ⟨hop, hw⟩ |
    ⟨hop, hw⟩ | ⟨hop, hw⟩ | ⟨hop, hw⟩ | ⟨hop, hw⟩ | ⟨hop, hw⟩ | ⟨hop, hw⟩ | ⟨hop, hw⟩ | ⟨hop, hw⟩ |
    ⟨hop, hw⟩ | ⟨hop, hw⟩
  all_goals
    simp [hop, hw, decodeGroup0_eq_some_iff, decodeGroup8_eq_some_iff, decodeGroupE_eq_some_iff,
      decodeGroupF_eq_some_iff, Instr.mnemonic, or_and_right, and_assoc, exists_or]

/-- No two rows of the table have one mnemonic. -/
theorem mnemonic_injOn {r q : OpcodeRow} (hr : r ∈ opcodeTable) (hq : q ∈ opcodeTable)
    (h : r.mnemonic = q.mnemonic) : r = q :=
  List.inj_on_of_nodup_map (by decide) hr hq h

/-- Settles O3: the table and the dispatch name the same kind, and a name is of one row only. -/
theorem dispatchAgreesWithTheOpcodeTable : Obligations.DispatchAgreesWithTheOpcodeTable := by
  intro w
  have decodes : ∀ r ∈ opcodeTable, r.covers w = true →
      ∃ i, decodeWord w = some i ∧ i.mnemonic = r.mnemonic :=
    fun r hr hw => (exists_row_covers_iff_decodeWord w r.mnemonic).mp ⟨r, hr, hw, rfl⟩
  have covered : ∀ i, decodeWord w = some i →
      ∃ r ∈ opcodeTable, r.covers w = true ∧ r.mnemonic = i.mnemonic :=
    fun i hi => (exists_row_covers_iff_decodeWord w i.mnemonic).mpr ⟨i, hi, rfl⟩
  refine ⟨fun r hr => ⟨decodes r hr, ?_⟩, fun r hr q hq hrw hqw => ?_, fun hnone r hr => ?_, fun hrows => ?_⟩
  · rintro ⟨i, hi, hir⟩
    obtain ⟨q, hq, hqw, hqi⟩ := covered i hi
    exact mnemonic_injOn hq hr (hqi.trans hir) ▸ hqw
  · obtain ⟨i, hi, hir⟩ := decodes r hr hrw
    obtain ⟨j, hj, hjq⟩ := decodes q hq hqw
    obtain rfl : i = j := Option.some.inj (hi.symm.trans hj)
    exact mnemonic_injOn hr hq (hir.symm.trans hjq)
  · refine Bool.eq_false_iff.mpr fun hrw => ?_
    obtain ⟨i, hi, _⟩ := decodes r hr hrw
    exact Option.some_ne_none i (hi.symm.trans hnone)
  · refine Option.eq_none_iff_forall_ne_some.mpr fun i hi => ?_
    obtain ⟨r, hr, hrw, _⟩ := covered i hi
    exact Bool.false_ne_true ((hrows r hr).symm.trans hrw)

end Sys2Proof
end

-- The jumps and the conditional skips move PC alone (40_control_flow.md R100, R103–R107).
section
namespace Sys2Proof.Machine

/-! ### Instructions that only jump -/

theorem State.jump_frame (s : State) (target : Word) : Frame [.pc] s (s.jump target) := by
  simp [frame_iff]

/-- An instruction whose whole effect is a jump moves PC to the jump's target and changes nothing else. -/
theorem movesPc_of_exec_eq_jump {w target : Word} {i : Instr} {s : State} (hdecode : decodeWord w = some i)
    (hexec : exec i s = .next (s.jump target)) : MovesPc w i target s :=
  ⟨hdecode, s.jump target, hexec, s.jump_pc target, s.jump_frame target⟩

/-- A skip is a jump to PC + 4 or PC + 2 (R39). -/
theorem State.skipWhen_eq_jump {s : State} {c : Bool} {p : Prop} [Decidable p] (hcond : c = true ↔ p) :
    s.skipWhen c = s.jump (if p then s.pc + 4 else s.pc + 2) := by
  rw [State.skipWhen, State.advance, add_ite]
  simp only [hcond, BitVec.ofNat_eq_ofNat]

/-- An instruction whose whole effect is a skip moves PC by 4 where its condition holds, by 2 where it does
not, and changes nothing else. -/
theorem movesPc_of_exec_eq_skipWhen {w : Word} {i : Instr} {s : State} {c : Bool} {p : Prop} [Decidable p]
    (hdecode : decodeWord w = some i) (hexec : exec i s = .next (s.skipWhen c)) (hcond : c = true ↔ p) :
    MovesPc w i (if p then s.pc + 4 else s.pc + 2) s :=
  movesPc_of_exec_eq_jump hdecode (hexec.trans (congrArg _ (State.skipWhen_eq_jump hcond)))

/-! ### The targets as numbers -/

theorem addrOperand_eq_ofNat (nnn : Addr) : addrOperand nnn = BitVec.ofNat 16 nnn.toNat :=
  (BitVec.ofNat_toNat 16 nnn).symm

theorem offsetTarget_eq_ofNat (nnn : Addr) (v0 : Byte) :
    offsetTarget nnn v0 = BitVec.ofNat 16 (nnn.toNat + v0.toNat) := by
  rw [offsetTarget, addrOperand_eq_ofNat, ← BitVec.ofNat_toNat 16 v0, BitVec.ofNat_add]

/-- The largest address and the largest byte are 0xFFF and 0xFF (R107). -/
theorem addr_add_byte_le (nnn : Addr) (v0 : Byte) : nnn.toNat + v0.toNat ≤ 0x10FE := by
  have haddr := nnn.isLt
  have hbyte := v0.isLt
  omega

/-! ### The obligations -/

/-- Settles O19: both jumps only jump, and their targets are sums of an address and at most one byte. -/
theorem jumpsGoToTheirTargets : Obligations.JumpsGoToTheirTargets := by
  intro s nnn
  refine ⟨?_, ?_, addr_add_byte_le nnn (s.reg 0)⟩
  · rw [← addrOperand_eq_ofNat]
    exact movesPc_of_exec_eq_jump (Laws.RoundTrip.jp nnn).2 rfl
  · rw [← offsetTarget_eq_ofNat]
    exact movesPc_of_exec_eq_jump (Laws.RoundTrip.jpV0 nnn).2 rfl

/-- Settles O20: the four instructions only skip, each on the comparison that its rule names. -/
theorem skipsAdvanceFourOrTwo : Obligations.SkipsAdvanceFourOrTwo := by
  intro s x y kk ign
  exact ⟨movesPc_of_exec_eq_skipWhen (Laws.RoundTrip.seByte x kk).2 rfl beq_iff_eq,
    movesPc_of_exec_eq_skipWhen (Laws.RoundTrip.sneByte x kk).2 rfl bne_iff_ne,
    movesPc_of_exec_eq_skipWhen (Laws.RoundTrip.seReg x y ign).2 rfl beq_iff_eq,
    movesPc_of_exec_eq_skipWhen (Laws.RoundTrip.sneReg x y ign).2 rfl bne_iff_ne⟩

end Sys2Proof.Machine
end

-- Loads, arithmetic, logic, shifts and random write V[x], some of them VF after it (41_load_arith.md R110–R122).
section
namespace Sys2Proof.Machine

/-! ### Instructions that write V[x], or V[x] and then VF -/

theorem State.setReg_advance_frame (s : State) (x : Reg) (b : Byte) (n : Word) :
    Frame [.v, .pc] s ((s.setReg x b).advance n) := by
  simp [frame_iff]

/-- An instruction whose whole effect is one register write before the advance of two. -/
theorem writesReg_of_exec_eq_setReg {w : Word} {i : Instr} {x : Reg} {b : Byte} {s : State}
    (hdecode : decodeWord w = some i) (hexec : exec i s = .next ((s.setReg x b).advance 2#16)) :
    WritesReg w i x b s := by
  refine ⟨hdecode, _, hexec, ?_, fun r hr => ?_, rfl, s.setReg_advance_frame x b 2#16⟩
  · rw [State.reg_advance, State.reg_setReg, if_pos rfl]
  · rw [State.reg_advance, State.reg_setReg, if_neg hr]

theorem State.setRegFlag_advance_frame (s : State) (x : Reg) (b flag : Byte) (n : Word) :
    Frame [.v, .pc] s ((s.setRegFlag x b flag).advance n) := by
  simp [frame_iff]

/-- An instruction whose whole effect is a register write and then the flag's, before the advance of two;
`hvalue` and `hflag` give the two bytes as the rule states them. -/
theorem writesRegFlag_of_exec_eq_setRegFlag {w : Word} {i : Instr} {x : Reg} {b value e flag : Byte} {s : State}
    (hdecode : decodeWord w = some i) (hexec : exec i s = .next ((s.setRegFlag x b e).advance 2#16))
    (hvalue : b = value) (hflag : e = flag) : WritesRegFlag w i x value flag s := by
  subst hvalue hflag
  refine ⟨hdecode, _, hexec, ?_, fun hx => ?_, fun r hrx hrf => ?_, rfl, s.setRegFlag_advance_frame x b e 2#16⟩
  · rw [State.reg_advance, State.reg_setRegFlag, if_pos rfl]
  · rw [State.reg_advance, State.reg_setRegFlag, if_neg hx, if_pos rfl]
  · rw [State.reg_advance, State.reg_setRegFlag, if_neg hrf, if_neg hrx]

/-! ### The results and the flags as numbers -/

/-- The sum of two bytes is taken modulo 256 (R14). -/
theorem byte_add_eq_ofNat_mod (a b : Byte) : a + b = BitVec.ofNat 8 ((a.toNat + b.toNat) % 256) := by
  rw [← BitVec.toNat_inj, BitVec.toNat_add, BitVec.toNat_ofNat, Nat.mod_mod]

theorem byte_ofInt_toNat (a : Byte) : BitVec.ofInt 8 a.toNat = a := by
  rw [BitVec.ofInt_natCast, BitVec.ofNat_toNat, BitVec.setWidth_eq]

/-- The difference of two bytes is taken modulo 256 (R14): added to `b` it gives `a` back. -/
theorem byte_sub_eq_ofInt (a b : Byte) : a - b = BitVec.ofInt 8 (a.toNat - b.toNat) := by
  rw [sub_eq_iff_eq_add]
  calc a = BitVec.ofInt 8 ((a.toNat - b.toNat) + b.toNat) := by rw [sub_add_cancel, byte_ofInt_toNat]
    _ = BitVec.ofInt 8 (a.toNat - b.toNat) + b := by rw [BitVec.ofInt_add, byte_ofInt_toNat]

/-- The shift right by one halves the byte. -/
theorem byte_ushiftRight_one_eq_ofNat (a : Byte) : a >>> 1 = BitVec.ofNat 8 (a.toNat / 2) := by
  rw [← BitVec.toNat_inj, BitVec.toNat_ushiftRight, BitVec.toNat_ofNat, Nat.shiftRight_one]
  omega

/-- The shift left by one doubles the byte modulo 256. -/
theorem byte_shiftLeft_one_eq_ofNat_mod (a : Byte) : a <<< 1 = BitVec.ofNat 8 (a.toNat * 2 % 256) := by
  rw [← BitVec.toNat_inj, BitVec.toNat_shiftLeft, BitVec.toNat_ofNat, Nat.mod_mod, Nat.shiftLeft_eq, pow_one]

theorem carryFlag_eq_ite (a b : Byte) : carryFlag a b = if a.toNat + b.toNat > 255 then 1#8 else 0#8 := by
  simp only [carryFlag, flagByte, decide_eq_true_eq, gt_iff_lt]

theorem greaterFlag_eq_ite (a b : Byte) : greaterFlag a b = if a.toNat > b.toNat then 1#8 else 0#8 := by
  simp only [greaterFlag, flagByte, decide_eq_true_eq, gt_iff_lt]

/-- Bit 0 is the remainder that the halving drops. -/
theorem lowBitFlag_eq_ofNat (a : Byte) : lowBitFlag a = BitVec.ofNat 8 (a.toNat % 2) := by
  rw [lowBitFlag, ← BitVec.toNat_inj, BitVec.toNat_and, BitVec.toNat_ofNat, BitVec.toNat_ofNat]
  simp only [Nat.reducePow, Nat.reduceMod, Nat.and_one_is_mod]
  omega

/-- Bit 7 is set from 128 on, where the doubling passes 255. -/
theorem highBitFlag_eq_ofNat (a : Byte) : highBitFlag a = BitVec.ofNat 8 (a.toNat / 128) := by
  rw [highBitFlag, ← BitVec.toNat_inj, BitVec.toNat_ushiftRight, BitVec.toNat_ofNat, Nat.shiftRight_eq_div_pow]
  omega

/-! ### The obligations -/

/-- Settles O16: each of the three writes its result and then its flag; both are computed from the operands
before either write. -/
theorem addAndSubtractSetVf : Obligations.AddAndSubtractSetVf := by
  intro s x y
  exact ⟨
    writesRegFlag_of_exec_eq_setRegFlag (Laws.RoundTrip.addReg x y).2 rfl (byte_add_eq_ofNat_mod _ _)
      (carryFlag_eq_ite _ _),
    writesRegFlag_of_exec_eq_setRegFlag (Laws.RoundTrip.subReg x y).2 rfl (byte_sub_eq_ofInt _ _)
      (greaterFlag_eq_ite _ _),
    writesRegFlag_of_exec_eq_setRegFlag (Laws.RoundTrip.subnReg x y).2 rfl (byte_sub_eq_ofInt _ _)
      (greaterFlag_eq_ite _ _)⟩

/-- Settles O17: both shifts write the shifted byte and then the bit shifted out, which is a remainder or a
quotient of V[x]. -/
theorem shiftsMoveTheBitOutIntoVf : Obligations.ShiftsMoveTheBitOutIntoVf := by
  intro s x y
  exact ⟨
    writesRegFlag_of_exec_eq_setRegFlag (Laws.RoundTrip.shr x y).2 rfl (byte_ushiftRight_one_eq_ofNat _)
      (lowBitFlag_eq_ofNat _),
    writesRegFlag_of_exec_eq_setRegFlag (Laws.RoundTrip.shl x y).2 rfl (byte_shiftLeft_one_eq_ofNat_mod _)
      (highBitFlag_eq_ofNat _)⟩

/-- Settles O15: each of the six is one register write. -/
theorem loadsAndLogicWriteVxAlone : Obligations.LoadsAndLogicWriteVxAlone := by
  intro s x y kk
  refine ⟨writesReg_of_exec_eq_setReg (Laws.RoundTrip.ldByte x kk).2 rfl, ?_,
    writesReg_of_exec_eq_setReg (Laws.RoundTrip.ldReg x y).2 rfl,
    writesReg_of_exec_eq_setReg (Laws.RoundTrip.orReg x y).2 rfl,
    writesReg_of_exec_eq_setReg (Laws.RoundTrip.andReg x y).2 rfl,
    writesReg_of_exec_eq_setReg (Laws.RoundTrip.xorReg x y).2 rfl⟩
  rw [← byte_add_eq_ofNat_mod]
  exact writesReg_of_exec_eq_setReg (Laws.RoundTrip.addByte x kk).2 rfl

/-- RND writes the mask of the tick's random byte, wherever that byte comes from. -/
theorem writesReg_rnd (s : State) (x : Reg) (kk : Byte) :
    WritesReg (wordXKK 0xC#4 x kk) (.rnd x kk) x (s.rand &&& kk) s :=
  writesReg_of_exec_eq_setReg (Laws.RoundTrip.rnd x kk).2 rfl

/-- Settles O18: where an input is queued, its byte is the state's RAND. -/
theorem randomMasksTheInputByte : Obligations.RandomMasksTheInputByte := by
  intro s x kk
  exact ⟨writesReg_rnd s x kk,
    fun keys rand rest => writesReg_rnd { s with inputs := ⟨keys, rand⟩ :: rest } x kk⟩

end Sys2Proof.Machine
end

-- The loads of I write I alone (42_index_memory.md R130, R132).
section
namespace Sys2Proof.Machine

/-! ### Instructions that write I -/

theorem State.setIndex_advance_frame (s : State) (w n : Word) :
    Frame [.i, .pc] s ((s.setIndex w).advance n) := by
  simp [frame_iff]

/-- An instruction whose whole effect is one write of I before the advance of two; `hvalue` gives the word
written as the rule states it. -/
theorem writesIndex_of_exec_eq_setIndex {w value : Word} {i : Instr} {n : Nat} {s : State}
    (hdecode : decodeWord w = some i) (hexec : exec i s = .next ((s.setIndex value).advance 2#16))
    (hvalue : value.toNat = n) : WritesIndex w i n s :=
  ⟨hdecode, _, hexec, hvalue, rfl, s.setIndex_advance_frame value 2#16⟩

/-! ### The values written, as numbers -/

/-- An address fits the sixteen bits of I (R72). -/
theorem addrOperand_toNat (nnn : Addr) : (addrOperand nnn).toNat = nnn.toNat :=
  BitVec.toNat_setWidth_of_le (by decide)

/-- The mask 0x0F keeps the low nibble, which is the remainder modulo 16. -/
theorem toNat_and_0F (b : Byte) : (b &&& 0x0F#8).toNat = b.toNat % 16 :=
  (BitVec.toNat_and ..).trans (Nat.and_two_pow_sub_one_eq_mod b.toNat 4)

/-- FONT stands at address 0 in glyphs of five bytes, so that the last glyph is at 75 (R9). -/
theorem fontAddress_toNat (b : Byte) : (fontAddress b).toNat = b.toNat % 16 * 5 := by
  rw [fontAddress, BitVec.toNat_ofNat, toNat_and_0F, Config.fontBase, Config.fontGlyphBytes]
  omega

/-! ### The obligation -/

/-- Settles O25: both instructions are one write of I, of the address or of the glyph's address. -/
theorem indexLoadsWriteIAlone : Obligations.IndexLoadsWriteIAlone := by
  intro s x nnn
  exact ⟨writesIndex_of_exec_eq_setIndex (Laws.RoundTrip.ldI nnn).2 rfl (addrOperand_toNat nnn),
    writesIndex_of_exec_eq_setIndex (Laws.RoundTrip.ldF x).2 rfl (fontAddress_toNat (s.reg x))⟩

end Sys2Proof.Machine
end

-- The read of the delay timer writes V[x] alone (43_timers.md R140).
section
namespace Sys2Proof.Machine

/-- Settles O32: LD Vx,DT is one register write, and the byte written is DT of the state it executes on. -/
theorem delayTimerIsReadAsItStands : Obligations.DelayTimerIsReadAsItStands := by
  intro s x
  exact writesReg_of_exec_eq_setReg (Laws.RoundTrip.ldVxDt x).2 rfl

end Sys2Proof.Machine
end

-- The clear of the framebuffer leaves it dark and writes nothing else but PC (44_display.md R145).
section
namespace Sys2Proof.Machine

theorem State.setDisp_advance_frame (s : State) (d : Display) (n : Word) :
    Frame [.disp, .pc] s ((s.setDisp d).advance n) := by
  simp [frame_iff]

/-- Settles O34: CLS is one write of DISP, of the framebuffer of zero bytes, whose bytes and pixels are read
by the lemmas about a constant vector. -/
theorem clearScreenDarkensEveryPixel : Obligations.ClearScreenDarkensEveryPixel := by
  intro s
  refine ⟨Laws.RoundTrip.cls.2, _, rfl, fun j => ?_, fun p => ?_, rfl, s.setDisp_advance_frame _ 2#16⟩
  · rw [State.advance_disp, State.setDisp_disp]
    exact Vector.getElem_replicate j.isLt
  · rw [State.advance_disp, State.setDisp_disp]
    exact dispBit_replicate_zero p

end Sys2Proof.Machine
end

-- The key load stores the lowest key down, or stalls (45_input.md R153).
section
namespace Sys2Proof.Machine

/-- An advance by zero is the stall: it leaves the whole state as it is. -/
theorem State.advance_zero (s : State) : s.advance 0#16 = s := by
  rw [State.advance, BitVec.add_zero, State.jump]

/-! ### The two cases of the key load -/

/-- Where no key is down, the answer is the state itself. -/
theorem exec_ldVxK_of_lowestKey_none {s : State} (x : Reg) (h : lowestKey s.keys = none) :
    exec (.ldVxK x) s = .next s := by
  rw [exec, execLdVxK, h, State.advance_zero]

/-- Where a key is down, the answer is one register write before the advance of two. -/
theorem exec_ldVxK_of_lowestKey_some {s : State} (x : Reg) {k : Nat} (h : lowestKey s.keys = some k) :
    exec (.ldVxK x) s = .next ((s.setReg x (BitVec.ofNat 8 k)).advance 2#16) := by
  rw [exec, execLdVxK, h]

/-! ### The obligation -/

/-- Settles O38: by what `lowestKey` can answer, the load is the stall or one register write; a key number
fits a byte. -/
theorem keyLoadStoresTheLowestKeyOrStalls : Obligations.KeyLoadStoresTheLowestKeyOrStalls := by
  intro s x
  have hdecode : decodeWord (wordXKK 0xF#4 x 0x0A#8) = some (.ldVxK x) := (Laws.RoundTrip.ldVxK x).2
  rcases lowestKey_cases s.keys with ⟨hzero, hnone⟩ | ⟨k, hk, hne, hsome, hdown, hlowest⟩
  · exact ⟨hdecode, fun _ => ⟨s, exec_ldVxK_of_lowestKey_none x hnone, .refl [] s⟩,
      fun hne => absurd hzero hne⟩
  · obtain ⟨-, t, hexec, hx, hothers, hpc, hframe⟩ :=
      writesReg_of_exec_eq_setReg hdecode (exec_ldVxK_of_lowestKey_some x hsome)
    have hvalue : (t.reg x).toNat = k := by
      rw [hx, BitVec.toNat_ofNat]
      omega
    exact ⟨hdecode, fun hzero => absurd hzero hne,
      fun _ => ⟨t, k, hexec, hk, hdown, hlowest, hvalue, hothers, hpc, hframe⟩⟩

end Sys2Proof.Machine
end

-- The timer step at the end of the phase, and before it (60_exceptions.md R173, R174).
section
namespace Sys2Proof.Machine

/-- Settles O13: the phase decides which case of the timers' laws holds; it is complete at 8 and at no
lower value. -/
theorem timersCountDownByAtMostOne : Obligations.TimersCountDownByAtMostOne := by
  intro s
  constructor
  · intro hcomplete
    exact ⟨(timerStep_dt s).trans (if_pos hcomplete), (timerStep_st s).trans (if_pos hcomplete)⟩
  · intro hbefore
    exact ⟨BitVec.eq_of_toNat_eq ((timerStep_dt s).trans (if_neg hbefore.ne)),
      BitVec.eq_of_toNat_eq ((timerStep_st s).trans (if_neg hbefore.ne))⟩

end Sys2Proof.Machine
end

-- A tick whose instruction completes, and the ticks on which nothing but the timers moves (10_state.md R38, R173).
section
namespace Sys2Proof.Machine

/-- What the fetch and the status read is FAULT, PC, PLEN and memory. -/
theorem Fetches.of_frame {changed : List Part} {s t : State} {w : Word} (h : Fetches s w)
    (hframe : Frame changed s t) (hreads : ∀ p ∈ [Part.fault, .pc, .plen, .mem], p ∉ changed) :
    Fetches t w := by
  have same : ∀ p ∈ [Part.fault, .pc, .plen, .mem], SameAt p s t := fun p hp => hframe p (hreads p hp)
  have hfault : t.fault = s.fault := same .fault (by decide)
  have hpc : t.pc = s.pc := same .pc (by decide)
  have hplen : t.plen = s.plen := same .plen (by decide)
  have hmem : ∀ a, t.mem.read a = s.mem.read a := same .mem (by decide)
  simpa only [Fetches, hfault, hpc, hplen, hmem] using h

/-- An instruction that completes is followed by the timer step (R38 steps 5 to 7). -/
theorem step_of_exec {s t : State} {w : Word} {i : Instr} (hfetch : Fetches s w)
    (hdecode : decodeWord w = some i) (hexec : exec i s = .next t) (hfault : t.fault = none) :
    step s = .next t.timerStep.nextInput := by
  rw [step_of_fetches hfetch, execWord, hdecode]
  simp only [hexec, afterExec, State.runTimers, hfault, Option.isSome_none, Bool.false_eq_true, if_false]

/-! ### Ticks on which only the timers move -/

/-- From s to t the timer step was taken k times and nothing else happened but the spending of inputs. -/
def TimersRan (k : Nat) (s t : State) : Prop :=
  Frame [.acc, .dt, .st, .env] s t ∧ t.acc.val = (s.acc.val + k) % 9 ∧
    t.dt.toNat = s.dt.toNat - (s.acc.val + k) / 9 ∧ t.st.toNat = s.st.toNat - (s.acc.val + k) / 9

theorem State.acc_lt (s : State) : s.acc.val < 9 := s.acc.isLt

theorem TimersRan.refl (s : State) : TimersRan 0 s s := by
  have hacc := s.acc_lt
  refine ⟨.refl _ s, ?_, ?_, ?_⟩ <;> omega

/-- Runs of the timers one after the other: the phase carries from the first into the second. -/
theorem TimersRan.trans {j k : Nat} {s t u : State} (h : TimersRan j s t) (h' : TimersRan k t u) :
    TimersRan (j + k) s u := by
  obtain ⟨hframe, hacc, hdt, hst⟩ := h
  obtain ⟨hframe', hacc', hdt', hst'⟩ := h'
  refine ⟨hframe.trans hframe', ?_, ?_, ?_⟩ <;> omega

theorem TimersRan.one (s : State) : TimersRan 1 s s.timerStep.nextInput := by
  have hacc := s.acc_lt
  have hframe : Frame [.acc, .dt, .st, .env] s s.timerStep :=
    (timerStep_frame s).weaken (by decide)
  have hinput : Frame [.acc, .dt, .st, .env] s.timerStep s.timerStep.nextInput :=
    s.timerStep.idle_frame.weaken (by decide)
  refine ⟨hframe.trans hinput, timerStep_acc s, ?_, ?_⟩
  · rw [State.nextInput_dt, timerStep_dt]
    split <;> omega
  · rw [State.nextInput_st, timerStep_st]
    split <;> omega

end Sys2Proof.Machine
end

-- The stall of LD Vx,K (70_reset_and_hazards.md R200; 45_input.md R153).
section
namespace Sys2Proof.Machine

theorem State.keys_of_inputs {s : State} {input : TickInput} {rest : List TickInput}
    (h : s.inputs = input :: rest) : s.keys = input.keys := by
  rw [State.keys, h]

/-- The inputs of a tick on which no key is down. -/
def noKeyInput (rand : BitVec 8) : TickInput := ⟨0#16, rand⟩

/-- A tick of LD Vx,K with no key down takes the timer step and nothing else. -/
theorem step_of_keyWait_stall {s : State} {x : Reg} (hfetch : Fetches s (wordXKK 0xF#4 x 0x0A#8))
    (hkeys : s.keys = 0#16) : step s = .next s.timerStep.nextInput := by
  have hnone : lowestKey s.keys = none := by
    rw [hkeys]
    decide
  exact step_of_exec hfetch (Laws.RoundTrip.ldVxK x).2 (exec_ldVxK_of_lowestKey_none x hnone) hfetch.1

/-- A tick of LD Vx,K with a key down stores the lowest-numbered one and moves on. -/
theorem step_of_keyWait_key {s : State} {x : Reg} (hfetch : Fetches s (wordXKK 0xF#4 x 0x0A#8))
    (hkeys : s.keys ≠ 0#16) :
    ∃ u, step s = .next u ∧ u.pc = s.pc + 2 ∧ (u.reg x).toNat ≤ 15 ∧
      s.keys.getLsbD (15 - (u.reg x).toNat) = true ∧
      (∀ j, j < (u.reg x).toNat → s.keys.getLsbD (15 - j) = false) ∧ u.inputs = s.inputs.tail := by
  obtain ⟨hdecode, -, hkey⟩ := keyLoadStoresTheLowestKeyOrStalls s x
  obtain ⟨t, k, hexec, hk, hdown, hlowest, rfl, -, hpc, hframe⟩ := hkey hkeys
  have hfault : t.fault = none := (hframe .fault (by decide)).trans hfetch.1
  have hinputs : t.inputs = s.inputs := (hframe .env (by decide)).1
  have hreg : t.timerStep.nextInput.reg x = t.reg x :=
    State.reg_congr (timerStep_v t) x
  refine ⟨_, step_of_exec hfetch hdecode hexec hfault, ?_⟩
  rw [hreg, State.nextInput_pc, timerStep_pc, State.nextInput_inputs, timerStep_inputs, hinputs]
  exact ⟨hpc, hk, hdown, hlowest, rfl⟩

/-- By induction on the inputs with no key down: each is one more stalled tick, which leaves the word at PC
and hands the rest of the queue on. -/
theorem ticks_of_keyWait_stall {x : Reg} {rest : List TickInput} (rands : List (BitVec 8)) :
    ∀ s, Fetches s (wordXKK 0xF#4 x 0x0A#8) → s.inputs = rands.map noKeyInput ++ rest →
      ∃ t, ticks rands.length s = .next t ∧ TimersRan rands.length s t ∧ t.inputs = rest := by
  induction rands with
  | nil => exact fun s _ hinputs => ⟨s, rfl, .refl s, hinputs⟩
  | cons rand rands ih =>
    intro s hfetch hinputs
    have hstep := step_of_keyWait_stall hfetch (State.keys_of_inputs hinputs)
    have hone := TimersRan.one s
    have hfetch' := hfetch.of_frame hone.1 (by decide)
    have hinputs' : s.timerStep.nextInput.inputs = rands.map noKeyInput ++ rest := by
      rw [State.nextInput_inputs, timerStep_inputs, hinputs]
      rfl
    obtain ⟨t, hticks, hran, hrest⟩ := ih _ hfetch' hinputs'
    refine ⟨t, ?_, ?_, hrest⟩
    · simpa only [List.length_cons, ticks, hstep] using hticks
    · simpa only [List.length_cons, Nat.add_comm] using hone.trans hran

/-- Settles O12: the stalled ticks run the timers alone, so LD Vx,K still stands at PC on the tick whose
input has a key down, and that tick stores the lowest. -/
theorem keyWaitStallsUntilAKeyIsDown : Obligations.KeyWaitStallsUntilAKeyIsDown := by
  intro s x rands keys rand rest hfetch hkeys hinputs
  obtain ⟨t, hticks, ⟨hframe, hacc, hdt, hst⟩, hrest⟩ := ticks_of_keyWait_stall rands s hfetch hinputs
  have hkeysNow : t.keys = keys := State.keys_of_inputs hrest
  have hpcNow : t.pc = s.pc := hframe .pc (by decide)
  obtain ⟨u, hstep, hpc, hk, hdown, hlowest, htail⟩ :=
    step_of_keyWait_key (hfetch.of_frame hframe (by decide)) (hkeysNow ▸ hkeys)
  rw [hkeysNow] at hdown hlowest
  exact ⟨t, u, hticks, hstep, hframe, hacc, hdt, hst, hpcNow ▸ hpc, hk, hdown, hlowest,
    htail.trans (congrArg List.tail hrest)⟩

end Sys2Proof.Machine
end

-- The power-on transaction (70_reset_and_hazards.md R190).
section
namespace Sys2Proof.Machine

/-! ### The contents of memory after power-on (R42) -/

theorem Memory.background_of_lt {a : Nat} (h : a < 80) : Memory.background a = (font[a]?).getD 0#8 :=
  if_pos ⟨a.zero_le, h⟩

theorem Memory.background_of_le {a : Nat} (h : 80 ≤ a) : Memory.background a = 0#8 :=
  if_neg fun hfont => h.not_gt hfont.2

/-! ### The obligation -/

/-- Settles O49: `init` keeps nothing of the block but its inputs; its vectors are constant, and its memory
lists no cell, so that every address reads as the power-on contents. -/
theorem initSetsEveryElement : Obligations.InitSetsEveryElement := by
  intro b
  refine ⟨rfl, fun r => ?registers, rfl, rfl, rfl, fun k => ?stack, rfl, rfl, rfl,
    fun a => Memory.background_of_lt, fun a => Memory.background_of_le, rfl, fun j => ?display, rfl, rfl⟩
  case registers => exact Vector.getElem_replicate r.isLt
  case stack => exact Vector.getElem_replicate k.isLt
  case display => exact Vector.getElem_replicate j.isLt

end Sys2Proof.Machine
end

-- Decoding and encoding are inverse to one another (30_encoding.md R70–R79).
section
namespace Sys2Proof

/-! ### From the instruction to its word and back -/

/-- The word of an instruction decodes to it (the family RoundTrip, instruction by instruction). -/
theorem decodeWord_encodeWord : ∀ i : Instr, decodeWord (encodeWord i) = some i
  | .cls => Laws.RoundTrip.cls.2
  | .ret => Laws.RoundTrip.ret.2
  | .jp nnn => (Laws.RoundTrip.jp nnn).2
  | .call nnn => (Laws.RoundTrip.call nnn).2
  | .seByte x kk => (Laws.RoundTrip.seByte x kk).2
  | .sneByte x kk => (Laws.RoundTrip.sneByte x kk).2
  | .seReg x y ign => (Laws.RoundTrip.seReg x y ign).2
  | .ldByte x kk => (Laws.RoundTrip.ldByte x kk).2
  | .addByte x kk => (Laws.RoundTrip.addByte x kk).2
  | .ldReg x y => (Laws.RoundTrip.ldReg x y).2
  | .orReg x y => (Laws.RoundTrip.orReg x y).2
  | .andReg x y => (Laws.RoundTrip.andReg x y).2
  | .xorReg x y => (Laws.RoundTrip.xorReg x y).2
  | .addReg x y => (Laws.RoundTrip.addReg x y).2
  | .subReg x y => (Laws.RoundTrip.subReg x y).2
  | .shr x y => (Laws.RoundTrip.shr x y).2
  | .subnReg x y => (Laws.RoundTrip.subnReg x y).2
  | .shl x y => (Laws.RoundTrip.shl x y).2
  | .sneReg x y ign => (Laws.RoundTrip.sneReg x y ign).2
  | .ldI nnn => (Laws.RoundTrip.ldI nnn).2
  | .jpV0 nnn => (Laws.RoundTrip.jpV0 nnn).2
  | .rnd x kk => (Laws.RoundTrip.rnd x kk).2
  | .drw x y n => (Laws.RoundTrip.drw x y n).2
  | .skp x => (Laws.RoundTrip.skp x).2
  | .sknp x => (Laws.RoundTrip.sknp x).2
  | .ldVxDt x => (Laws.RoundTrip.ldVxDt x).2
  | .ldVxK x => (Laws.RoundTrip.ldVxK x).2
  | .ldDtVx x => (Laws.RoundTrip.ldDtVx x).2
  | .ldStVx x => (Laws.RoundTrip.ldStVx x).2
  | .addI x => (Laws.RoundTrip.addI x).2
  | .ldF x => (Laws.RoundTrip.ldF x).2
  | .ldB x => (Laws.RoundTrip.ldB x).2
  | .ldMemVx x => (Laws.RoundTrip.ldMemVx x).2
  | .ldVxMem x => (Laws.RoundTrip.ldVxMem x).2

/-- Settles O1: the bytes of an instruction are those of its word, which decodes to it. -/
theorem decodeOfEncodeIsTheInstruction : Obligations.DecodeOfEncodeIsTheInstruction := by
  intro i rest
  rw [encode, decode_bytesOfWord, decodeWord_encodeWord]

/-! ### From the word to its instruction and back -/

theorem wordADDR_nnnOf {w : Word} {op : Nibble} (hop : opOf w = op) : wordADDR op (nnnOf w) = w :=
  hop ▸ wordADDR_fields w

theorem wordXKK_xOf_kkOf {w : Word} {op : Nibble} (hop : opOf w = op) : wordXKK op (xOf w) (kkOf w) = w :=
  hop ▸ wordXKK_fields w

theorem wordXYN_xOf_yOf_nOf {w : Word} {op : Nibble} (hop : opOf w = op) :
    wordXYN op (xOf w) (yOf w) (nOf w) = w :=
  hop ▸ wordXYN_fields w

/-- Group 0x0 decodes two words, each in whole. -/
theorem encodeWord_of_decodeGroup0 {w : Word} {i : Instr} (h : decodeGroup0 w = some i) : encodeWord i = w := by
  obtain ⟨rfl, rfl⟩ | ⟨rfl, rfl⟩ := decodeGroup0_eq_some_iff.mp h <;> rfl

/-- Group 0x8 keeps both registers, and the kind gives the sub-opcode back. -/
theorem encodeWord_of_decodeGroup8 {x y : Reg} {n : Nibble} {i : Instr} (h : decodeGroup8 x y n = some i) :
    encodeWord i = wordXYN 0x8#4 x y n := by
  obtain ⟨rfl, rfl⟩ | ⟨rfl, rfl⟩ | ⟨rfl, rfl⟩ | ⟨rfl, rfl⟩ | ⟨rfl, rfl⟩ | ⟨rfl, rfl⟩ | ⟨rfl, rfl⟩ |
    ⟨rfl, rfl⟩ | ⟨rfl, rfl⟩ := decodeGroup8_eq_some_iff.mp h <;> rfl

/-- Group 0xE keeps the register, and the kind gives the low byte back. -/
theorem encodeWord_of_decodeGroupE {x : Reg} {kk : Byte} {i : Instr} (h : decodeGroupE x kk = some i) :
    encodeWord i = wordXKK 0xE#4 x kk := by
  obtain ⟨rfl, rfl⟩ | ⟨rfl, rfl⟩ := decodeGroupE_eq_some_iff.mp h <;> rfl

/-- Group 0xF keeps the register, and the kind gives the low byte back. -/
theorem encodeWord_of_decodeGroupF {x : Reg} {kk : Byte} {i : Instr} (h : decodeGroupF x kk = some i) :
    encodeWord i = wordXKK 0xF#4 x kk := by
  obtain ⟨rfl, rfl⟩ | ⟨rfl, rfl⟩ | ⟨rfl, rfl⟩ | ⟨rfl, rfl⟩ | ⟨rfl, rfl⟩ | ⟨rfl, rfl⟩ | ⟨rfl, rfl⟩ |
    ⟨rfl, rfl⟩ | ⟨rfl, rfl⟩ := decodeGroupF_eq_some_iff.mp h <;> rfl

/-- Settles O2: by the arms of the dispatch, each of which hands every field of the word on. -/
theorem encodeOfDecodeIsTheWord : Obligations.EncodeOfDecodeIsTheWord := by
  intro w i h
  rcases decodeWord_cases w with ⟨hop, hw⟩ | ⟨hop, hw⟩ | ⟨hop, hw⟩ | ⟨hop, hw⟩ | ⟨hop, hw⟩ | ⟨hop, hw⟩ |
    ⟨hop, hw⟩ | ⟨hop, hw⟩ | ⟨hop, hw⟩ | ⟨hop, hw⟩ | ⟨hop, hw⟩ | ⟨hop, hw⟩ | ⟨hop, hw⟩ | ⟨hop, hw⟩ |
    ⟨hop, hw⟩ | ⟨hop, hw⟩ <;> rw [hw] at h
  · exact encodeWord_of_decodeGroup0 h
  · exact Option.some.inj h ▸ wordADDR_nnnOf hop
  · exact Option.some.inj h ▸ wordADDR_nnnOf hop
  · exact Option.some.inj h ▸ wordXKK_xOf_kkOf hop
  · exact Option.some.inj h ▸ wordXKK_xOf_kkOf hop
  · exact Option.some.inj h ▸ wordXYN_xOf_yOf_nOf hop
  · exact Option.some.inj h ▸ wordXKK_xOf_kkOf hop
  · exact Option.some.inj h ▸ wordXKK_xOf_kkOf hop
  · exact (encodeWord_of_decodeGroup8 h).trans (wordXYN_xOf_yOf_nOf hop)
  · exact Option.some.inj h ▸ wordXYN_xOf_yOf_nOf hop
  · exact Option.some.inj h ▸ wordADDR_nnnOf hop
  · exact Option.some.inj h ▸ wordADDR_nnnOf hop
  · exact Option.some.inj h ▸ wordXKK_xOf_kkOf hop
  · exact Option.some.inj h ▸ wordXYN_xOf_yOf_nOf hop
  · exact (encodeWord_of_decodeGroupE h).trans (wordXKK_xOf_kkOf hop)
  · exact (encodeWord_of_decodeGroupF h).trans (wordXKK_xOf_kkOf hop)

/-- Settles O4: each of the words by evaluation of the dispatch. -/
theorem writtenWordsDecode : Obligations.WrittenWordsDecode := by
  unfold Obligations.WrittenWordsDecode
  decide

end Sys2Proof
end

-- The instructions that can fault, by case: what each answers where its check passes and where it fails
-- (40_control_flow.md R101, R102; 42_index_memory.md R133–R135; 44_display.md R146; 45_input.md R151, R152).
section
namespace Sys2Proof.Machine

variable {s : State}

/-! ### The stack -/

theorem State.sp_le (s : State) : s.sp.val ≤ 16 := Nat.le_of_lt_succ s.sp.isLt

theorem push_of_lt (w : Word) (h : s.sp.val < 16) :
    s.push w = .ok (s.setStack ⟨s.sp.val + 1, Nat.succ_lt_succ h⟩ (s.stack.set s.sp.val w h)) :=
  dif_pos h

theorem push_of_full (w : Word) (h : s.sp.val = 16) : s.push w = .error .stackOverflow :=
  dif_neg h.not_lt

/-- The index below SP. -/
theorem State.sp_pred_lt (h : s.sp.val ≠ 0) : s.sp.val - 1 < 16 := Nat.lt_of_lt_of_le (Nat.sub_one_lt h) s.sp_le

theorem pop_of_ne (h : s.sp.val ≠ 0) :
    s.pop = .ok (s.stack[s.sp.val - 1]'(State.sp_pred_lt h),
      s.setStack ⟨s.sp.val - 1, Nat.lt_succ_of_lt (State.sp_pred_lt h)⟩ s.stack) :=
  if_neg h

theorem pop_of_empty (h : s.sp.val = 0) : s.pop = .error .stackUnderflow := if_pos h

theorem exec_call_of_lt (nnn : Addr) (h : s.sp.val < 16) :
    exec (.call nnn) s = .next ((s.setStack ⟨s.sp.val + 1, Nat.succ_lt_succ h⟩
      (s.stack.set s.sp.val (s.pc + 2#16) h)).jump (addrOperand nnn)) := by
  rw [exec, execCall, push_of_lt _ h]
  rfl

theorem exec_call_of_full (nnn : Addr) (h : s.sp.val = 16) :
    exec (.call nnn) s = .next (s.raise .stackOverflow) := by
  rw [exec, execCall, push_of_full _ h]
  rfl

theorem exec_ret_of_ne (h : s.sp.val ≠ 0) :
    exec .ret s = .next ((s.setStack ⟨s.sp.val - 1, Nat.lt_succ_of_lt (State.sp_pred_lt h)⟩ s.stack).jump
      (s.stack[s.sp.val - 1]'(State.sp_pred_lt h))) := by
  rw [exec, execRet, pop_of_ne h]
  rfl

theorem exec_ret_of_empty (h : s.sp.val = 0) : exec .ret s = .next (s.raise .stackUnderflow) := by
  rw [exec, execRet, pop_of_empty h]
  rfl

/-! ### Memory -/

theorem memRead_of_inside {a n : Nat} (m : Memory) (h : n = 0 ∨ a + n ≤ 4096) :
    memRead m a n = .ok (m.readSpan a n) :=
  if_pos ((spanInMemory_iff a n).mpr h)

theorem memRead_of_outside {a n : Nat} (m : Memory) (hn : n ≠ 0) (h : 4096 < a + n) :
    memRead m a n = .error .memoryOutOfRange :=
  if_neg fun hs => ((spanInMemory_iff a n).mp hs).elim hn h.not_ge

theorem memWrite_of_inside {a : Nat} {bytes : List Byte} (m : Memory) (h : a + bytes.length ≤ 4096) :
    memWrite m a bytes = .ok (m.writeSpan a bytes) :=
  if_pos ((spanInMemory_iff a _).mpr (.inr h))

theorem memWrite_of_outside {a : Nat} {bytes : List Byte} (m : Memory) (hn : bytes.length ≠ 0)
    (h : 4096 < a + bytes.length) : memWrite m a bytes = .error .memoryOutOfRange :=
  if_neg fun hs => ((spanInMemory_iff a _).mp hs).elim hn h.not_ge

@[simp] theorem length_bcdDigits (b : Byte) : (bcdDigits b).length = 3 := rfl

@[simp] theorem State.length_firstRegs (s : State) (x : Reg) : (s.firstRegs x).length = x.val + 1 := by
  have := x.isLt
  simp only [State.firstRegs, blockLength, List.length_take, Vector.length_toList, Config.numV]
  omega

theorem exec_ldB_of_inside {x : Reg} (h : s.indexAddress + 2 < 4096) :
    exec (.ldB x) s =
      .next ((s.setMem (s.mem.writeSpan s.indexAddress (bcdDigits (s.reg x)))).advance 2#16) := by
  rw [exec, execLdB, memWrite_of_inside _ (by rw [length_bcdDigits]; omega)]
  rfl

theorem exec_ldB_of_outside {x : Reg} (h : 4096 ≤ s.indexAddress + 2) :
    exec (.ldB x) s = .next (s.raise .memoryOutOfRange) := by
  rw [exec, execLdB, memWrite_of_outside _ (by rw [length_bcdDigits]; decide) (by rw [length_bcdDigits]; omega)]
  rfl

theorem exec_ldMemVx_of_inside {x : Reg} (h : s.indexAddress + x.val < 4096) :
    exec (.ldMemVx x) s =
      .next ((s.setMem (s.mem.writeSpan s.indexAddress (s.firstRegs x))).advance 2#16) := by
  rw [exec, execLdMemVx, memWrite_of_inside _ (by rw [State.length_firstRegs]; omega)]
  rfl

theorem exec_ldMemVx_of_outside {x : Reg} (h : 4096 ≤ s.indexAddress + x.val) :
    exec (.ldMemVx x) s = .next (s.raise .memoryOutOfRange) := by
  rw [exec, execLdMemVx, memWrite_of_outside _ (by rw [State.length_firstRegs]; omega)
    (by rw [State.length_firstRegs]; omega)]
  rfl

theorem exec_ldVxMem_of_inside {x : Reg} (h : s.indexAddress + x.val < 4096) :
    exec (.ldVxMem x) s =
      .next ((s.loadFirstRegs (s.mem.readSpan s.indexAddress (x.val + 1))).advance 2#16) := by
  rw [exec, execLdVxMem, blockLength, memRead_of_inside _ (.inr (by omega))]
  rfl

theorem exec_ldVxMem_of_outside {x : Reg} (h : 4096 ≤ s.indexAddress + x.val) :
    exec (.ldVxMem x) s = .next (s.raise .memoryOutOfRange) := by
  rw [exec, execLdVxMem, blockLength, memRead_of_outside _ (by omega) (by omega)]
  rfl

/-! ### The framebuffer -/

/-- What DRW draws where no byte of its sprite is out of range (R146). -/
def State.drawn (s : State) (x y : Reg) (n : Nibble) : Canvas :=
  drawSprite (s.mem.readSpan s.indexAddress n.toNat) (s.reg x).toNat (s.reg y).toNat ⟨s.disp, false⟩

theorem exec_drw_of_inside {x y : Reg} {n : Nibble} (h : n.toNat = 0 ∨ s.indexAddress + (n.toNat - 1) < 4096) :
    exec (.drw x y n) s = .next (((s.setDisp (s.drawn x y n).disp).setReg 15
      (flagByte (s.drawn x y n).collided)).advance 2#16) := by
  rw [exec, execDrw, memRead_of_inside _ (by omega)]
  rfl

theorem exec_drw_of_outside {x y : Reg} {n : Nibble} (hn : n.toNat ≠ 0)
    (h : 4096 ≤ s.indexAddress + (n.toNat - 1)) : exec (.drw x y n) s = .next (s.raise .memoryOutOfRange) := by
  rw [exec, execDrw, memRead_of_outside _ hn (by omega)]
  rfl

/-! ### Keys -/

theorem keyOperand_of_le {b : Byte} (h : b.toNat ≤ 15) : keyOperand b = .ok b.toNat := if_neg h.not_gt

theorem keyOperand_of_lt {b : Byte} (h : 15 < b.toNat) : keyOperand b = .error .keyIndexOutOfRange := if_pos h

theorem exec_skp_of_le {x : Reg} (h : (s.reg x).toNat ≤ 15) :
    exec (.skp x) s = .next (s.skipWhen (keyDown s.keys (s.reg x).toNat)) := by
  rw [exec, execSkp, keyOperand_of_le h]
  rfl

theorem exec_skp_of_lt {x : Reg} (h : 15 < (s.reg x).toNat) :
    exec (.skp x) s = .next (s.raise .keyIndexOutOfRange) := by
  rw [exec, execSkp, keyOperand_of_lt h]
  rfl

theorem exec_sknp_of_le {x : Reg} (h : (s.reg x).toNat ≤ 15) :
    exec (.sknp x) s = .next (s.skipWhen (!keyDown s.keys (s.reg x).toNat)) := by
  rw [exec, execSknp, keyOperand_of_le h]
  rfl

theorem exec_sknp_of_lt {x : Reg} (h : 15 < (s.reg x).toNat) :
    exec (.sknp x) s = .next (s.raise .keyIndexOutOfRange) := by
  rw [exec, execSknp, keyOperand_of_lt h]
  rfl

end Sys2Proof.Machine
end

-- Ticks that fault (10_state.md R38; 60_exceptions.md R160, R168).
section
namespace Sys2Proof.Machine

/-! ### Any tick -/

/-- Settles O6: each of the cases of a tick answers a next state. -/
theorem everyTickAnswersANextState : Obligations.EveryTickAnswersANextState := by
  intro s
  rcases step_cases s with ⟨h, _⟩ | ⟨h, _⟩ | ⟨h, _⟩ | ⟨_, _, _, h⟩ | ⟨_, _, _, _, _, _, h⟩ |
    ⟨_, _, _, _, _, _, _, _, h⟩
  all_goals exact ⟨_, h⟩

theorem eq_of_exec {i : Instr} {s t u : State} (ht : exec i s = .next t) (hu : exec i s = .next u) : t = u :=
  Host.Outcome.next.inj (ht.symm.trans hu)

theorem eq_of_step {s t u : State} (ht : step s = .next t) (hu : step s = .next u) : t = u :=
  Host.Outcome.next.inj (ht.symm.trans hu)

/-! ### A tick that faults -/

/-- The only ticks that leave a fault where none was held are the fetch past the end of memory and an
instruction that took the fault; either way the tick is the taking of the fault. -/
theorem step_fault_cases {s t : State} {f : Fault} (hs : s.fault = none) (hstep : step s = .next t)
    (ht : t.fault = some f) :
    t = (s.raise f).nextInput ∧ s.status = .running s.pc ∧
      ((f = .fetchOutOfRange ∧ 4096 ≤ s.pc.toNat + 1) ∨ ∃ i, exec i s = .next (s.raise f)) := by
  rcases step_cases s with ⟨-, g, hg⟩ | ⟨h, -, -⟩ | ⟨h, -, hlt, hm⟩ | ⟨w, hw, -, h⟩ | ⟨w, i, g, hw, -, hexec, h⟩ |
    ⟨w, i, u, hw, -, -, hu, -, h⟩
  · exact absurd (hs.symm.trans hg) (Option.some_ne_none g).symm
  · obtain rfl := eq_of_step h hstep
    exact absurd (hs.symm.trans ht) (Option.some_ne_none f).symm
  · obtain rfl := eq_of_step h hstep
    obtain rfl : Fault.fetchOutOfRange = f := Option.some.inj ht
    exact ⟨rfl, status_eq_running.mpr ⟨rfl, hs, hlt⟩, .inl ⟨rfl, hm⟩⟩
  · obtain rfl := eq_of_step h hstep
    rw [State.nextInput_fault, timerStep_fault, hs] at ht
    exact absurd ht.symm (Option.some_ne_none f)
  · obtain rfl := eq_of_step h hstep
    obtain rfl : g = f := Option.some.inj ht
    exact ⟨rfl, hw.status, .inr ⟨i, hexec⟩⟩
  · obtain rfl := eq_of_step h hstep
    rw [State.nextInput_fault, timerStep_fault, hu] at ht
    exact absurd ht.symm (Option.some_ne_none f)

theorem State.raise_nextInput_frame (s : State) (f : Fault) :
    Frame [.fault, .env] s (s.raise f).nextInput := by
  simp [frame_iff]

/-- Settles O8: the faulting tick is the taking of the fault, and a machine that holds one is stopped. -/
theorem faultIsPreciseAndTerminal : Obligations.FaultIsPreciseAndTerminal := by
  intro s t f hs hstep ht
  obtain ⟨rfl, hrunning, -⟩ := step_fault_cases hs hstep ht
  refine ⟨s.raise_nextInput_frame f, by rw [tickOutput_of_running hrunning, ht], fun k => ?_⟩
  have hstatus : (s.raise f).nextInput.status = .faulted f := status_eq_faulted.mpr ht
  have hstopped : ∀ pc, (s.raise f).nextInput.status ≠ .running pc := by simp [hstatus]
  obtain ⟨u, hticks, hframe⟩ := ticks_of_stopped hstopped k
  have hstopped' : ∀ pc, u.status ≠ .running pc := hframe.status_eq ▸ hstopped
  exact ⟨u, u.idle, hticks, step_of_stopped hstopped', hframe,
    (tickOutput_of_stopped hstopped' _).trans (hframe.status_eq.trans hstatus)⟩

end Sys2Proof.Machine
end

-- Which instruction raises which fault, and when the fetch does (60_exceptions.md R161–R169).
section
namespace Sys2Proof.Machine

/-- What R162–R164 and R166 give as the cause of a fault, instruction by instruction. -/
def CausesFault (s : State) : Instr → Fault → Prop
  | .call _, f => f = .stackOverflow ∧ s.sp.val = 16
  | .ret, f => f = .stackUnderflow ∧ s.sp.val = 0
  | .drw _ _ n, f => f = .memoryOutOfRange ∧ n.toNat ≠ 0 ∧ 4096 ≤ s.i.toNat + (n.toNat - 1)
  | .ldB _, f => f = .memoryOutOfRange ∧ 4096 ≤ s.i.toNat + 2
  | .ldMemVx x, f | .ldVxMem x, f => f = .memoryOutOfRange ∧ 4096 ≤ s.i.toNat + x.val
  | .skp x, f | .sknp x, f => f = .keyIndexOutOfRange ∧ 15 < (s.reg x).toNat
  | _, _ => False

section
variable {i : Instr} {s t : State} {f g : Fault} {p : Prop}

/-- An instruction with a check: where it fails the answer has taken the fault, and where it passes the
answer has taken none. -/
theorem fault_eq_some_iff_of_check (hs : s.fault = none) (h : exec i s = .next t)
    (hfail : p → exec i s = .next (s.raise g)) (hpass : ¬ p → ∃ u, exec i s = .next u ∧ u.fault = s.fault) :
    t.fault = some f ↔ f = g ∧ p := by
  by_cases hp : p
  · rw [eq_of_exec h (hfail hp), State.raise_fault, Option.some_inj]
    exact ⟨fun hg => ⟨hg.symm, hp⟩, fun hf => hf.1.symm⟩
  · obtain ⟨u, hu, hfault⟩ := hpass hp
    rw [eq_of_exec h hu, hfault, hs]
    exact ⟨fun hf => absurd hf.symm (Option.some_ne_none f), fun hf => absurd hf.2 hp⟩

/-- An instruction without a check. -/
theorem fault_eq_some_iff_false (hs : s.fault = none) (hfault : t.fault = s.fault) :
    t.fault = some f ↔ False := by
  simp [hfault, hs]

/-- An instruction leaves a fault exactly where its rule gives a cause for it. -/
theorem fault_eq_some_iff_causesFault (hs : s.fault = none) (h : exec i s = .next t) :
    t.fault = some f ↔ CausesFault s i f := by
  cases i
  case call nnn =>
    exact fault_eq_some_iff_of_check hs h (exec_call_of_full nnn)
      fun hp => ⟨_, exec_call_of_lt nnn (Nat.lt_of_le_of_ne s.sp_le hp), rfl⟩
  case ret => exact fault_eq_some_iff_of_check hs h exec_ret_of_empty fun hp => ⟨_, exec_ret_of_ne hp, rfl⟩
  case drw x y n =>
    exact fault_eq_some_iff_of_check hs h (fun hp => exec_drw_of_outside hp.1 hp.2)
      fun hp => ⟨_, exec_drw_of_inside (by rw [State.indexAddress]; omega), rfl⟩
  case ldB x =>
    exact fault_eq_some_iff_of_check hs h exec_ldB_of_outside
      fun hp => ⟨_, exec_ldB_of_inside (not_le.mp hp), rfl⟩
  case ldMemVx x =>
    exact fault_eq_some_iff_of_check hs h exec_ldMemVx_of_outside
      fun hp => ⟨_, exec_ldMemVx_of_inside (not_le.mp hp), rfl⟩
  case ldVxMem x =>
    exact fault_eq_some_iff_of_check hs h exec_ldVxMem_of_outside
      fun hp => ⟨_, exec_ldVxMem_of_inside (not_le.mp hp), by simp⟩
  case skp x =>
    exact fault_eq_some_iff_of_check hs h exec_skp_of_lt fun hp => ⟨_, exec_skp_of_le (not_lt.mp hp), rfl⟩
  case sknp x =>
    exact fault_eq_some_iff_of_check hs h exec_sknp_of_lt fun hp => ⟨_, exec_sknp_of_le (not_lt.mp hp), rfl⟩
  case ldVxK x =>
    cases hkey : lowestKey s.keys with
    | none => exact fault_eq_some_iff_false hs (eq_of_exec h (exec_ldVxK_of_lowestKey_none x hkey) ▸ rfl)
    | some k => exact fault_eq_some_iff_false hs (eq_of_exec h (exec_ldVxK_of_lowestKey_some x hkey) ▸ rfl)
  all_goals exact fault_eq_some_iff_false hs (Host.Outcome.next.inj h ▸ rfl)

end

/-- Settles O10: the causes of the rules, gathered by fault. -/
theorem eachFaultHasItsOneCause : Obligations.EachFaultHasItsOneCause := by
  intro i s t f hs h
  rw [fault_eq_some_iff_causesFault hs h]
  cases i <;> simp [CausesFault]

/-- No instruction raises the fault of the fetch (R165). -/
theorem not_causesFault_fetchOutOfRange (s : State) (i : Instr) : ¬ CausesFault s i .fetchOutOfRange := by
  cases i <;> simp [CausesFault]

/-- Settles O9: a running PC is below 4096, and the fetch faults where PC + 1 is not; no instruction raises
that fault. -/
theorem fetchFaultsOnlyAtTheTopOfMemory : Obligations.FetchFaultsOnlyAtTheTopOfMemory := by
  intro s hs hrunning
  have hplen : s.plen.val < 3585 := s.plen.isLt
  have htop : 4096 ≤ s.pc.toNat + 1 ↔ s.pc = 0xFFF#16 := by
    rw [← BitVec.toNat_inj, BitVec.toNat_ofNat]
    omega
  refine ⟨⟨?_, fun hpc => ?_⟩, fun hpc => ?_⟩
  · rintro ⟨t, hstep, ht⟩
    obtain ⟨-, -, ⟨-, hm⟩ | ⟨i, hexec⟩⟩ := step_fault_cases hs hstep ht
    · exact htop.mp hm
    · exact absurd ((fault_eq_some_iff_causesFault hs hexec).mp rfl) (not_causesFault_fetchOutOfRange s i)
  · exact ⟨_, step_of_fetch_fault hs hrunning (htop.mpr hpc), rfl⟩
  · have := htop.mpr hpc
    omega

end Sys2Proof.Machine
end

-- What each instruction changes and what it never changes (10_state.md R21–R36; 20_memory.md R65).
section
namespace Sys2Proof.Machine

variable {i : Instr} {s t : State}

/-! ### The parts and their writers -/

/-- A part of the state other than FAULT changes only by a kind that may change it, faults included. -/
theorem sameAt_of_exec (h : exec i s = .next t) {p : Part} (hp : p ≠ .fault) (hi : p ∉ mayChange i) :
    SameAt p s t := by
  obtain ⟨f, rfl⟩ | ⟨-, hframe⟩ := exec_frame h
  · cases p <;> simp_all [SameAt]
  · exact hframe p hi

theorem acc_eq_of_exec (h : exec i s = .next t) : t.acc = s.acc :=
  sameAt_of_exec h (p := .acc) (by decide) (by cases i <;> simp [mayChange])

theorem plen_eq_of_exec (h : exec i s = .next t) : t.plen = s.plen :=
  sameAt_of_exec h (p := .plen) (by decide) (by cases i <;> simp [mayChange])

theorem env_eq_of_exec (h : exec i s = .next t) : t.inputs = s.inputs ∧ t.tickNo = s.tickNo :=
  sameAt_of_exec h (p := .env) (by decide) (by cases i <;> simp [mayChange])

theorem mem_mayChange_mem (h : Part.mem ∈ mayChange i) : ∃ x, i = .ldB x ∨ i = .ldMemVx x := by
  cases i <;> simp [mayChange] at h ⊢

theorem disp_mem_mayChange (h : Part.disp ∈ mayChange i) : i = .cls ∨ ∃ x y n, i = .drw x y n := by
  cases i <;> simp [mayChange] at h ⊢

theorem dt_mem_mayChange (h : Part.dt ∈ mayChange i) : ∃ x, i = .ldDtVx x := by
  cases i <;> simp [mayChange] at h ⊢

theorem st_mem_mayChange (h : Part.st ∈ mayChange i) : ∃ x, i = .ldStVx x := by
  cases i <;> simp [mayChange] at h ⊢

theorem i_mem_mayChange (h : Part.i ∈ mayChange i) :
    (∃ nnn, i = .ldI nnn) ∨ (∃ x, i = .addI x) ∨ ∃ x, i = .ldF x := by
  cases i <;> simp [mayChange] at h ⊢

theorem sp_mem_mayChange (h : Part.sp ∈ mayChange i) : (∃ nnn, i = .call nnn) ∨ i = .ret := by
  cases i <;> simp [mayChange] at h ⊢

theorem stack_mem_mayChange (h : Part.stack ∈ mayChange i) : (∃ nnn, i = .call nnn) ∨ i = .ret := by
  cases i <;> simp [mayChange] at h ⊢

theorem dt_eq_of_exec (h : exec i s = .next t) (hi : ∀ x, i ≠ .ldDtVx x) : t.dt = s.dt :=
  sameAt_of_exec h (p := .dt) (by decide) fun hp => (dt_mem_mayChange hp).elim hi

theorem st_eq_of_exec (h : exec i s = .next t) (hi : ∀ x, i ≠ .ldStVx x) : t.st = s.st :=
  sameAt_of_exec h (p := .st) (by decide) fun hp => (st_mem_mayChange hp).elim hi

/-- Settles O42: each part changes only by a kind that may change it. -/
theorem eachElementChangesOnlyByItsWriters : Obligations.EachElementChangesOnlyByItsWriters := by
  intro i s t h
  have changed : ∀ p : Part, p ≠ .fault → ¬ SameAt p s t → p ∈ mayChange i :=
    fun p hp hne => by_contra fun hi => hne (sameAt_of_exec h hp hi)
  refine ⟨fun ⟨a, ha⟩ => mem_mayChange_mem ?_, fun hne => disp_mem_mayChange (changed .disp (by decide) hne),
    fun hne => dt_mem_mayChange (changed .dt (by decide) hne),
    fun hne => st_mem_mayChange (changed .st (by decide) hne),
    acc_eq_of_exec h, plen_eq_of_exec h, env_eq_of_exec h⟩
  exact changed .mem (by decide) fun hsame => ha (hsame a)

/-! ### The stack -/

/-- RET keeps every entry, whether it pops or faults. -/
theorem stack_eq_of_exec_ret (h : exec .ret s = .next t) : t.stack = s.stack := by
  by_cases hsp : s.sp.val = 0
  · rw [eq_of_exec h (exec_ret_of_empty hsp), State.raise_stack]
  · rw [eq_of_exec h (exec_ret_of_ne hsp), State.jump_stack, State.setStack_stack]

/-- Settles O41: of the two kinds that may change the stack, RET keeps the entries. -/
theorem onlyCallAndReturnMoveTheStackPointer : Obligations.OnlyCallAndReturnMoveTheStackPointer := by
  intro i s t h
  refine ⟨fun hne => sp_mem_mayChange (by_contra fun hi => hne (sameAt_of_exec h (p := .sp) (by decide) hi)),
    fun hne => ?_⟩
  obtain hcall | rfl :=
    stack_mem_mayChange (by_contra fun hi => hne (sameAt_of_exec h (p := .stack) (by decide) hi))
  · exact hcall
  · exact absurd (stack_eq_of_exec_ret h) hne

/-! ### The index register -/

/-- Settles O40: an address and the address of a glyph lie below 4096. -/
theorem onlyAddToIndexLeavesTheAddressSpace : Obligations.OnlyAddToIndexLeavesTheAddressSpace := by
  intro i s t h
  have writer : t.i ≠ s.i → (∃ nnn, i = .ldI nnn) ∨ (∃ x, i = .addI x) ∨ ∃ x, i = .ldF x :=
    fun hne => i_mem_mayChange (by_contra fun hi => hne (sameAt_of_exec h (p := .i) (by decide) hi))
  refine ⟨writer, fun hlow hhigh => ?_⟩
  have hne : t.i ≠ s.i := fun heq => hhigh.not_gt (heq ▸ hlow)
  obtain ⟨nnn, rfl⟩ | hadd | ⟨x, rfl⟩ := writer hne
  · obtain rfl := Host.Outcome.next.inj h
    rw [State.advance_i, State.setIndex_i, addrOperand_toNat] at hhigh
    exact absurd nnn.isLt hhigh.not_gt
  · exact hadd
  · obtain rfl := Host.Outcome.next.inj h
    rw [State.advance_i, State.setIndex_i, fontAddress_toNat] at hhigh
    omega

/-! ### The flag register -/

/-- A block load up to V[x] keeps the registers above x. -/
theorem State.reg_loadFirstRegs_readSpan (s : State) (m : Memory) (a : Nat) (x k : Reg) :
    (s.loadFirstRegs (m.readSpan a (x.val + 1))).reg k =
      if k.val ≤ x.val then m.read (a + k.val) else s.reg k := by
  rw [State.reg_loadFirstRegs, Memory.getElem?_readSpan]
  simp only [Nat.lt_succ_iff]
  split <;> rfl

/-- A block load changes VF only where it is the last register loaded. -/
theorem eq_flagReg_of_exec_ldVxMem {x : Reg} (h : exec (.ldVxMem x) s = .next t) (hne : t.reg 15 ≠ s.reg 15) :
    x = 15 := by
  by_contra hx
  have hlt : ¬ (15 : Reg).val ≤ x.val := fun hle => hx (Fin.ext (Nat.le_antisymm (Nat.le_of_lt_succ x.isLt) hle))
  rcases Nat.lt_or_ge (s.indexAddress + x.val) 4096 with hin | hout
  · rw [eq_of_exec h (exec_ldVxMem_of_inside hin), State.reg_advance, State.reg_loadFirstRegs_readSpan,
      if_neg hlt] at hne
    exact hne rfl
  · rw [eq_of_exec h (exec_ldVxMem_of_outside hout), State.reg_raise] at hne
    exact hne rfl

/-- One register write changes VF only where that is the register. -/
theorem eq_flagReg_of_exec_eq_setReg {x : Reg} {b : Byte}
    (hexec : exec i s = .next ((s.setReg x b).advance 2#16)) (h : exec i s = .next t)
    (hne : t.reg 15 ≠ s.reg 15) : x = 15 := by
  by_contra hx
  rw [eq_of_exec h hexec, State.reg_advance, State.reg_setReg, if_neg (Ne.symm hx)] at hne
  exact hne rfl

/-- The key load writes its register or nothing. -/
theorem eq_flagReg_of_exec_ldVxK {x : Reg} (h : exec (.ldVxK x) s = .next t) (hne : t.reg 15 ≠ s.reg 15) :
    x = 15 := by
  cases hkey : lowestKey s.keys with
  | none =>
    rw [eq_of_exec h (exec_ldVxK_of_lowestKey_none x hkey)] at hne
    exact absurd rfl hne
  | some k => exact eq_flagReg_of_exec_eq_setReg (exec_ldVxK_of_lowestKey_some x hkey) h hne

/-- Settles O39: a kind that writes no register keeps VF, a kind that writes one has F for it, and the others
are the flag producers. -/
theorem onlyFlagProducersWriteVfAsAFlag : Obligations.OnlyFlagProducersWriteVfAsAFlag := by
  intro i s t h hne
  cases i
  case addReg | subReg | shr | subnReg | shl | drw => simp
  case ldByte | addByte | rnd | ldReg | orReg | andReg | xorReg | ldVxDt =>
    obtain rfl := eq_flagReg_of_exec_eq_setReg rfl h hne
    simp
  case ldVxK =>
    obtain rfl := eq_flagReg_of_exec_ldVxK h hne
    simp
  case ldVxMem =>
    obtain rfl := eq_flagReg_of_exec_ldVxMem h hne
    simp
  all_goals exact absurd (sameAt_of_exec h (p := .v) (by decide) (by simp [mayChange]) 15) hne

end Sys2Proof.Machine
end

-- The tick that executes an instruction or an UNKNOWN word (10_state.md R38; 60_exceptions.md R173;
-- 70_reset_and_hazards.md R199, R201).
section
namespace Sys2Proof.Machine

/-! ### After the execute step -/

theorem runTimers_of_safe {s : State} (h : s.fault = none) : s.runTimers = s.timerStep := by
  simp [State.runTimers, h]

theorem runTimers_of_fault {s : State} (h : s.fault ≠ none) : s.runTimers = s :=
  if_pos (Option.isSome_iff_ne_none.mpr h)

@[simp] theorem runTimers_fault (s : State) : s.runTimers.fault = s.fault := by
  unfold State.runTimers
  split
  · rfl
  · exact timerStep_fault s

@[simp] theorem runTimers_sp (s : State) : s.runTimers.sp = s.sp := by
  unfold State.runTimers
  split
  · rfl
  · exact timerStep_sp s

@[simp] theorem runTimers_stack (s : State) : s.runTimers.stack = s.stack := by
  unfold State.runTimers
  split
  · rfl
  · exact timerStep_stack s

/-- Every word has an effect, the UNKNOWN ones too. -/
theorem exists_execWord (w : Word) (s : State) : ∃ u, execWord w s = .next u := by
  unfold execWord
  cases decodeWord w with
  | none => exact ⟨s, rfl⟩
  | some i =>
    obtain ⟨u, hexec, -⟩ := exec_cases i s
    exact ⟨u, hexec⟩

/-- The tick of a fetched word whose effect is t. -/
theorem step_of_execWord {s t : State} {w : Word} (hfetch : Fetches s w) (h : execWord w s = .next t) :
    step s = .next t.runTimers.nextInput := by
  rw [step_of_fetches hfetch, h, afterExec]

/-- A tick without a fault on a fetched word is the word's effect and then the timer step. -/
theorem execWord_of_step {s t : State} {w : Word} (hfetch : Fetches s w) (hstep : step s = .next t)
    (ht : t.fault = none) : ∃ u, execWord w s = .next u ∧ t = u.timerStep.nextInput := by
  obtain ⟨u, hexec⟩ := exists_execWord w s
  obtain rfl := eq_of_step (step_of_execWord hfetch hexec) hstep
  rw [State.nextInput_fault, runTimers_fault] at ht
  exact ⟨u, hexec, congrArg State.nextInput (runTimers_of_safe ht)⟩

/-- An UNKNOWN word changes nothing, and an instruction is executed. -/
theorem execWord_eq_next {s u : State} {w : Word} (h : execWord w s = .next u) :
    u = s ∧ decodeWord w = none ∨ ∃ i, decodeWord w = some i ∧ exec i s = .next u := by
  unfold execWord at h
  cases hdecode : decodeWord w with
  | none =>
    rw [hdecode] at h
    exact .inl ⟨(Host.Outcome.next.inj h).symm, rfl⟩
  | some i =>
    rw [hdecode] at h
    exact .inr ⟨i, rfl, h⟩

/-! ### The timers -/

theorem execWord_acc {s u : State} {w : Word} (h : execWord w s = .next u) : u.acc = s.acc := by
  obtain ⟨rfl, -⟩ | ⟨i, -, hexec⟩ := execWord_eq_next h
  · rfl
  · exact acc_eq_of_exec hexec

/-- LD DT,Vx alone writes DT. -/
theorem execWord_dt {s u : State} {w : Word} (h : execWord w s = .next u) :
    (∀ x, decodeWord w = some (.ldDtVx x) → u.dt = s.reg x) ∧
      ((∀ x, decodeWord w ≠ some (.ldDtVx x)) → u.dt = s.dt) := by
  obtain ⟨rfl, hnone⟩ | ⟨i, hdecode, hexec⟩ := execWord_eq_next h
  · exact ⟨fun x hx => by simp [hnone] at hx, fun _ => rfl⟩
  · refine ⟨fun x hx => ?_, fun hno => dt_eq_of_exec hexec fun x hi => hno x (hi ▸ hdecode)⟩
    obtain rfl : i = .ldDtVx x := Option.some.inj (hdecode.symm.trans hx)
    rw [← Host.Outcome.next.inj hexec, State.advance_dt, State.setDt_dt]

/-- LD ST,Vx alone writes ST. -/
theorem execWord_st {s u : State} {w : Word} (h : execWord w s = .next u) :
    (∀ x, decodeWord w = some (.ldStVx x) → u.st = s.reg x) ∧
      ((∀ x, decodeWord w ≠ some (.ldStVx x)) → u.st = s.st) := by
  obtain ⟨rfl, hnone⟩ | ⟨i, hdecode, hexec⟩ := execWord_eq_next h
  · exact ⟨fun x hx => by simp [hnone] at hx, fun _ => rfl⟩
  · refine ⟨fun x hx => ?_, fun hno => st_eq_of_exec hexec fun x hi => hno x (hi ▸ hdecode)⟩
    obtain rfl : i = .ldStVx x := Option.some.inj (hdecode.symm.trans hx)
    rw [← Host.Outcome.next.inj hexec, State.advance_st, State.setSt_st]

/-- Settles O14: the timer step is taken from the state that the word's effect left. -/
theorem everyExecutedTickTakesTheTimerStep : Obligations.EveryExecutedTickTakesTheTimerStep := by
  intro s t w hfetch hstep ht
  obtain ⟨u, hexec, rfl⟩ := execWord_of_step hfetch hstep ht
  have hacc := execWord_acc hexec
  obtain ⟨hdtLoad, hdtKeep⟩ := execWord_dt hexec
  obtain ⟨hstLoad, hstKeep⟩ := execWord_st hexec
  simp only [State.nextInput_acc, State.nextInput_dt, State.nextInput_st, timerStep_acc, timerStep_dt,
    timerStep_st, hacc]
  refine ⟨trivial, fun x hx => ?_, fun hno => ?_, fun x hx => ?_, fun hno => ?_⟩
  · rw [hdtLoad x hx]
  · rw [hdtKeep hno]
  · rw [hstLoad x hx]
  · rw [hstKeep hno]

/-! ### An instruction -/

theorem decodeWord_of_decode {hi lo : Byte} {i : Instr} (h : decode [hi, lo] = .ok (i, [])) :
    decodeWord (wordOfBytes hi lo) = some i := by
  cases hword : decodeWord (wordOfBytes hi lo) with
  | none => simp [decode, hword] at h
  | some j => simpa [decode, hword] using h

/-- Settles O5: the bytes at PC decode as the fetched word does; then the tick is the timer step of what exec
answers, or that answer itself where it took a fault. -/
theorem stepRunsTheDecodedInstruction : Obligations.StepRunsTheDecodedInstruction := by
  intro s t i hs hrunning hmem hdecode hexec
  have hfetch : Fetches s _ := ⟨hs, hrunning, hmem, rfl⟩
  have hword := decodeWord_of_decode hdecode
  have hstep : step s = .next t.runTimers.nextInput :=
    step_of_execWord hfetch (by simp only [execWord, hword, hexec])
  by_cases ht : t.fault = none
  · rw [runTimers_of_safe ht] at hstep
    have hframe : Frame [.acc, .dt, .st, .env] t t.timerStep.nextInput := (TimersRan.one t).1
    exact ⟨_, hstep, congrArg List.tail (timerStep_inputs t),
      fun _ => ⟨hframe, timerStep_acc t, timerStep_dt t, timerStep_st t⟩, fun hne => absurd ht hne⟩
  · rw [runTimers_of_fault ht] at hstep
    exact ⟨_, hstep, rfl, fun hnone => absurd hnone ht, fun _ => t.idle_frame⟩

/-! ### An UNKNOWN word -/

/-- By induction on the ticks: each takes the timer step alone, which leaves the word at PC. -/
theorem ticks_of_unknown {w : Word} (hdecode : decodeWord w = none) (k : Nat) :
    ∀ s, Fetches s w → ∃ t, ticks k s = .next t ∧ TimersRan k s t := by
  induction k with
  | zero => exact fun s _ => ⟨s, rfl, .refl s⟩
  | succ k ih =>
    intro s hfetch
    have hone := TimersRan.one s
    obtain ⟨t, hticks, hran⟩ := ih _ (hfetch.of_frame hone.1 (by decide))
    refine ⟨t, ?_, ?_⟩
    · simpa only [ticks, step_of_unknown hfetch hdecode] using hticks
    · simpa only [Nat.add_comm] using hone.trans hran

/-- Settles O11: only the timers run, so the status is Running at the same PC. -/
theorem unknownWordHangsWhileTimersRun : Obligations.UnknownWordHangsWhileTimersRun := by
  intro s w k hfetch hdecode
  obtain ⟨t, hticks, hframe, hacc, hdt, hst⟩ := ticks_of_unknown hdecode k s hfetch
  have hstatus : t.status = s.status :=
    status_congr (hframe .fault (by decide)) (hframe .pc (by decide)) (hframe .plen (by decide))
  exact ⟨t, hticks, hframe, hstatus.trans hfetch.status, hacc, hdt, hst⟩

end Sys2Proof.Machine
end

-- The invariant of every reachable state (10_state.md R40).
section
namespace Sys2Proof.Machine

variable {i : Instr} {s t : State}

/-- What the invariant reads is memory, PC and the stack. -/
theorem State.Inv.congr (h : s.Inv) (hmem : t.mem = s.mem) (hpc : t.pc = s.pc) (hstack : t.stack = s.stack) :
    t.Inv :=
  ⟨hmem ▸ h.memCanonical, hpc ▸ h.pcBound, by simpa only [hstack] using h.stackBound⟩

/-- An advance by at most four from an address that is fetched. -/
theorem State.Inv.of_advance (h : s.Inv) {n : Word} (hn : n.toNat ≤ 4) (hlow : s.pc.toNat ≤ 0xFFE)
    (hmem : t.mem.wf = true) (hpc : t.pc = s.pc + n) (hstack : t.stack = s.stack) : t.Inv := by
  refine ⟨hmem, ?_, by simpa only [hstack] using h.stackBound⟩
  rw [hpc, BitVec.toNat_add]
  omega

theorem State.Inv.skipWhen (h : s.Inv) (hlow : s.pc.toNat ≤ 0xFFE) (c : Bool) : (s.skipWhen c).Inv :=
  h.of_advance (by split <;> decide) hlow h.memCanonical (s.skipWhen_pc c) rfl

/-- A jump to an address within the bound. -/
theorem State.Inv.jump (h : s.Inv) {target : Word} (htarget : target.toNat ≤ 0x10FE) : (s.jump target).Inv :=
  ⟨h.memCanonical, htarget, h.stackBound⟩

theorem State.Inv.raise (h : s.Inv) (f : Fault) : (s.raise f).Inv := h.congr rfl rfl rfl

theorem State.Inv.nextInput (h : s.Inv) : s.nextInput.Inv := h.congr rfl rfl rfl

theorem State.Inv.timerStep (h : s.Inv) : s.timerStep.Inv :=
  h.congr (timerStep_mem s) (timerStep_pc s) (timerStep_stack s)

/-- Any stack pointer, and a stack with one entry more within the bound. -/
theorem State.Inv.setStack_set (h : s.Inv) (p : Fin (Config.stackDepth + 1)) {k : Nat} (hk : k < 16) {w : Word}
    (hw : w.toNat ≤ 0x1000) : (s.setStack p (s.stack.set k w hk)).Inv := by
  refine ⟨h.memCanonical, h.pcBound, fun j => ?_⟩
  simp only [State.setStack_stack, Vector.getElem_set]
  split
  · exact hw
  · exact h.stackBound j

theorem offsetTarget_toNat_le (nnn : Addr) (v0 : Byte) : (offsetTarget nnn v0).toNat ≤ 0x10FE := by
  rw [offsetTarget_eq_ofNat, BitVec.toNat_ofNat]
  exact (Nat.mod_le ..).trans (addr_add_byte_le nnn v0)

/-- CALL keeps the invariant: the return address is at most 0x1000, and the target an address. -/
theorem Inv_of_exec_call {nnn : Addr} (hinv : s.Inv) (hlow : s.pc.toNat ≤ 0xFFE)
    (h : exec (.call nnn) s = .next t) : t.Inv := by
  rcases Nat.lt_or_eq_of_le s.sp_le with hlt | hfull
  · rw [eq_of_exec h (exec_call_of_lt nnn hlt)]
    have hreturn : (s.pc + 2#16).toNat ≤ 0x1000 := by
      rw [BitVec.toNat_add, BitVec.toNat_ofNat]
      omega
    have htarget : (addrOperand nnn).toNat ≤ 0x10FE := by
      rw [addrOperand_toNat]
      omega
    exact (hinv.setStack_set _ hlt hreturn).jump htarget
  · rw [eq_of_exec h (exec_call_of_full nnn hfull)]
    exact hinv.raise _

/-- RET keeps the invariant: it goes to an entry of the stack. -/
theorem Inv_of_exec_ret (hinv : s.Inv) (h : exec .ret s = .next t) : t.Inv := by
  by_cases hsp : s.sp.val = 0
  · rw [eq_of_exec h (exec_ret_of_empty hsp)]
    exact hinv.raise _
  · rw [eq_of_exec h (exec_ret_of_ne hsp)]
    have hentry := hinv.stackBound ⟨s.sp.val - 1, State.sp_pred_lt hsp⟩
    exact ⟨hinv.memCanonical, Nat.le_trans hentry (by decide), hinv.stackBound⟩

/-- Every instruction keeps the invariant, from an address that is fetched. -/
theorem Inv_of_exec (hinv : s.Inv) (hlow : s.pc.toNat ≤ 0xFFE) (h : exec i s = .next t) : t.Inv := by
  have advance2 : ∀ {u : State}, u.mem = s.mem → u.pc = s.pc + 2#16 → u.stack = s.stack → u.Inv :=
    fun hmem hpc hstack => hinv.of_advance (by decide) hlow (hmem ▸ hinv.memCanonical) hpc hstack
  cases i
  case call nnn => exact Inv_of_exec_call hinv hlow h
  case ret => exact Inv_of_exec_ret hinv h
  case jp nnn =>
    obtain rfl := Host.Outcome.next.inj h
    exact hinv.jump (by rw [addrOperand_toNat]; omega)
  case jpV0 nnn =>
    obtain rfl := Host.Outcome.next.inj h
    exact hinv.jump (offsetTarget_toNat_le nnn _)
  case seByte | sneByte | seReg | sneReg =>
    obtain rfl := Host.Outcome.next.inj h
    exact hinv.skipWhen hlow _
  case skp x =>
    rcases Nat.lt_or_ge 15 (s.reg x).toNat with hk | hk
    · exact eq_of_exec (exec_skp_of_lt hk) h ▸ hinv.raise _
    · exact eq_of_exec (exec_skp_of_le hk) h ▸ hinv.skipWhen hlow _
  case sknp x =>
    rcases Nat.lt_or_ge 15 (s.reg x).toNat with hk | hk
    · exact eq_of_exec (exec_sknp_of_lt hk) h ▸ hinv.raise _
    · exact eq_of_exec (exec_sknp_of_le hk) h ▸ hinv.skipWhen hlow _
  case drw x y n =>
    by_cases hin : n.toNat = 0 ∨ s.indexAddress + (n.toNat - 1) < 4096
    · exact eq_of_exec (exec_drw_of_inside hin) h ▸ advance2 rfl rfl rfl
    · exact eq_of_exec (exec_drw_of_outside (by omega) (by omega)) h ▸ hinv.raise _
  case ldB x =>
    rcases Nat.lt_or_ge (s.indexAddress + 2) 4096 with hin | hout
    · rw [← eq_of_exec (exec_ldB_of_inside hin) h]
      exact hinv.of_advance (by decide) hlow
        (Memory.wf_writeSpan hinv.memCanonical (.inr (by rw [length_bcdDigits]; omega))) rfl rfl
    · exact eq_of_exec (exec_ldB_of_outside hout) h ▸ hinv.raise _
  case ldMemVx x =>
    rcases Nat.lt_or_ge (s.indexAddress + x.val) 4096 with hin | hout
    · rw [← eq_of_exec (exec_ldMemVx_of_inside hin) h]
      exact hinv.of_advance (by decide) hlow
        (Memory.wf_writeSpan hinv.memCanonical (.inr (by rw [State.length_firstRegs]; omega))) rfl rfl
    · exact eq_of_exec (exec_ldMemVx_of_outside hout) h ▸ hinv.raise _
  case ldVxMem x =>
    rcases Nat.lt_or_ge (s.indexAddress + x.val) 4096 with hin | hout
    · exact eq_of_exec (exec_ldVxMem_of_inside hin) h ▸ advance2 (by simp) (by simp) (by simp)
    · exact eq_of_exec (exec_ldVxMem_of_outside hout) h ▸ hinv.raise _
  case ldVxK x =>
    cases hkey : lowestKey s.keys with
    | none => exact eq_of_exec (exec_ldVxK_of_lowestKey_none x hkey) h ▸ hinv
    | some k => exact eq_of_exec (exec_ldVxK_of_lowestKey_some x hkey) h ▸ advance2 rfl rfl rfl
  all_goals
    obtain rfl := Host.Outcome.next.inj h
    exact advance2 rfl rfl rfl

theorem Fetches.pc_le {w : Word} (h : Fetches s w) : s.pc.toNat ≤ 0xFFE := by
  have hmem : s.pc.toNat + 1 < 4096 := h.2.2.1
  omega

/-- Settles O48: a tick is idle, takes a fault, or executes a word below 0xFFE; none of these leaves the
invariant. -/
theorem everyTickKeepsTheInvariant : Obligations.EveryTickKeepsTheInvariant := by
  intro s t hinv hstep
  refine ⟨?_, fun w hfetch => hfetch.pc_le⟩
  rcases step_cases s with ⟨h, -⟩ | ⟨h, -⟩ | ⟨h, -⟩ | ⟨w, -, -, h⟩ | ⟨w, i, f, -, -, -, h⟩ |
    ⟨w, i, u, hfetch, -, hexec, -, -, h⟩ <;> rw [← eq_of_step h hstep]
  · exact hinv.nextInput
  · exact hinv.nextInput
  · exact (hinv.raise _).nextInput
  · exact hinv.timerStep.nextInput
  · exact (hinv.raise f).nextInput
  · exact (Inv_of_exec hinv hfetch.pc_le hexec).timerStep.nextInput

/-- Settles O47: nothing is stored, PC is the entry point and every entry is 0. -/
theorem powerOnMeetsTheInvariant : Obligations.PowerOnMeetsTheInvariant := by
  refine ⟨rfl, by decide, fun k => ?_⟩
  simp [State.reset]

end Sys2Proof.Machine
end

-- What no instruction reads (10_state.md R25, R27, R36, R37): an instruction does the same with other values there.
section
namespace Sys2Proof.Machine

/-- A choice for the elements that no instruction reads, the stack below SP and the inputs excepted. -/
structure Unread where
  st : Byte
  stack : Vector Word Config.stackDepth
  acc : Fin Config.timerDivide
  plen : Fin (Config.maxProgLen + 1)
  inputs : List TickInput
  tickNo : Nat

/-- The state's own choice. -/
def State.unread (s : State) : Unread := ⟨s.st, s.stack, s.acc, s.plen, s.inputs, s.tickNo⟩

/-- The state with another choice. -/
def State.withUnread (s : State) (e : Unread) : State :=
  { s with st := e.st, stack := e.stack, acc := e.acc, plen := e.plen, inputs := e.inputs, tickNo := e.tickNo }

/-- The stack has the state's own entries below SP. -/
def StackFits (stack : Vector Word Config.stackDepth) (s : State) : Prop :=
  ∀ j : Fin 16, j.val < s.sp.val → stack[j] = s.stack[j]

/-- The instruction finds under the choice the inputs it reads: KEYS for SKP, SKNP and LD Vx,K, RAND for
RND. -/
def Unread.InputsFit (e : Unread) (i : Instr) (s : State) : Prop :=
  ((∀ x, i ≠ .skp x ∧ i ≠ .sknp x ∧ i ≠ .ldVxK x) ∨ (s.withUnread e).keys = s.keys) ∧
    ((∀ x kk, i ≠ .rnd x kk) ∨ (s.withUnread e).rand = s.rand)

/-- From s to t the choice came to hold ST and the stack as given: what was the state's own stays so, and the
entries below SP stay so too. -/
structure Unread.Follows (e : Unread) (st : Byte) (stack : Vector Word Config.stackDepth) (s t : State) : Prop where
  keepsSt : e.st = s.st → st = t.st
  keepsStack : e.stack = s.stack → stack = t.stack
  fits : StackFits stack t

variable {s t : State} {e : Unread}

/-- A step that leaves SP, ST and the stack alone. -/
theorem Unread.Follows.of_same (he : StackFits e.stack s) (hsp : t.sp = s.sp) (hst : t.st = s.st)
    (hstack : t.stack = s.stack) : e.Follows e.st e.stack s t where
  keepsSt h := h.trans hst.symm
  keepsStack h := h.trans hstack.symm
  fits := by simpa only [StackFits, hsp, hstack] using he

/-- CALL pushes one entry on both stacks. -/
theorem Unread.Follows.of_push (he : StackFits e.stack s) (h : s.sp.val < 16) (w target : Word) :
    e.Follows e.st (e.stack.set s.sp.val w h) s
      ((s.setStack ⟨s.sp.val + 1, Nat.succ_lt_succ h⟩ (s.stack.set s.sp.val w h)).jump target) where
  keepsSt := id
  keepsStack hstack := by rw [hstack]; rfl
  fits := by
    intro j hj
    simp only [State.jump_sp, State.setStack_sp] at hj
    simp only [State.jump_stack, State.setStack_stack, Fin.getElem_fin, Vector.getElem_set]
    split
    · rfl
    · exact he j (by omega)

/-- RET pops an entry below SP, which is the same on both stacks. -/
theorem Unread.Follows.of_pop (he : StackFits e.stack s) (h : s.sp.val ≠ 0) (target : Word) :
    e.Follows e.st e.stack s
      ((s.setStack ⟨s.sp.val - 1, Nat.lt_succ_of_lt (State.sp_pred_lt h)⟩ s.stack).jump target) where
  keepsSt := id
  keepsStack := id
  fits := fun j hj => he j (Nat.lt_of_lt_of_le hj (Nat.sub_le ..))

/-- LD ST,Vx writes V[x] over both. -/
theorem Unread.Follows.of_setSt (he : StackFits e.stack s) (b : Byte) :
    e.Follows b e.stack s ((s.setSt b).advance 2#16) where
  keepsSt := fun _ => rfl
  keepsStack := id
  fits := he

/-- Each instruction answers the same next state under any choice, but for the choice itself. -/
theorem exec_withUnread {i : Instr} (he : StackFits e.stack s) (hi : e.InputsFit i s) :
    ∃ t st stack, exec i s = .next t ∧
      exec i (s.withUnread e) = .next (t.withUnread { e with st := st, stack := stack }) ∧
      e.Follows st stack s t := by
  obtain ⟨hkeys, hrand⟩ := hi
  have same : ∀ {t : State}, exec i s = .next t → exec i (s.withUnread e) = .next (t.withUnread e) →
      t.sp = s.sp → t.st = s.st → t.stack = s.stack →
      ∃ t st stack, exec i s = .next t ∧
        exec i (s.withUnread e) = .next (t.withUnread { e with st := st, stack := stack }) ∧
        e.Follows st stack s t :=
    fun {t} h h' hsp hst hstack => ⟨t, e.st, e.stack, h, h', .of_same he hsp hst hstack⟩
  cases i
  case call nnn =>
    rcases Nat.lt_or_eq_of_le s.sp_le with hlt | hfull
    · exact ⟨_, e.st, e.stack.set s.sp.val (s.pc + 2#16) hlt, exec_call_of_lt nnn hlt,
        exec_call_of_lt (s := s.withUnread e) nnn hlt, .of_push he hlt _ _⟩
    · exact same (exec_call_of_full nnn hfull) (exec_call_of_full nnn hfull) rfl rfl rfl
  case ret =>
    by_cases hsp : s.sp.val = 0
    · exact same (exec_ret_of_empty hsp) (exec_ret_of_empty hsp) rfl rfl rfl
    · have hlt := State.sp_pred_lt hsp
      have hentry : e.stack[s.sp.val - 1] = s.stack[s.sp.val - 1] := he ⟨s.sp.val - 1, hlt⟩ (Nat.sub_one_lt hsp)
      refine ⟨_, e.st, e.stack, exec_ret_of_ne hsp, ?_, .of_pop he hsp _⟩
      rw [exec_ret_of_ne (s := s.withUnread e) hsp, ← hentry]
      rfl
  case ldStVx x => exact ⟨_, s.reg x, e.stack, rfl, rfl, .of_setSt he _⟩
  case rnd x kk =>
    have hrand := hrand.resolve_left fun hno => hno x kk rfl
    refine same rfl ?_ rfl rfl rfl
    rw [exec, execRnd, hrand]
    rfl
  case skp x =>
    have hkeys := hkeys.resolve_left fun hno => (hno x).1 rfl
    rcases Nat.lt_or_ge 15 (s.reg x).toNat with hk | hk
    · exact same (exec_skp_of_lt hk) (exec_skp_of_lt hk) rfl rfl rfl
    · refine same (exec_skp_of_le hk) ?_ rfl rfl rfl
      rw [exec_skp_of_le (s := s.withUnread e) hk, hkeys]
      rfl
  case sknp x =>
    have hkeys := hkeys.resolve_left fun hno => (hno x).2.1 rfl
    rcases Nat.lt_or_ge 15 (s.reg x).toNat with hk | hk
    · exact same (exec_sknp_of_lt hk) (exec_sknp_of_lt hk) rfl rfl rfl
    · refine same (exec_sknp_of_le hk) ?_ rfl rfl rfl
      rw [exec_sknp_of_le (s := s.withUnread e) hk, hkeys]
      rfl
  case ldVxK x =>
    have hkeys := hkeys.resolve_left fun hno => (hno x).2.2 rfl
    cases hkey : lowestKey s.keys with
    | none =>
      have hkey' : lowestKey (s.withUnread e).keys = none := hkeys ▸ hkey
      exact same (exec_ldVxK_of_lowestKey_none x hkey) (exec_ldVxK_of_lowestKey_none x hkey') rfl rfl rfl
    | some k =>
      have hkey' : lowestKey (s.withUnread e).keys = some k := hkeys ▸ hkey
      exact same (exec_ldVxK_of_lowestKey_some x hkey) (exec_ldVxK_of_lowestKey_some x hkey') rfl rfl rfl
  case drw x y n =>
    by_cases hin : n.toNat = 0 ∨ s.indexAddress + (n.toNat - 1) < 4096
    · exact same (exec_drw_of_inside hin) (exec_drw_of_inside hin) rfl rfl rfl
    · obtain ⟨hn, hout⟩ := not_or.mp hin
      exact same (exec_drw_of_outside hn (not_lt.mp hout)) (exec_drw_of_outside hn (not_lt.mp hout)) rfl rfl rfl
  case ldB x =>
    rcases Nat.lt_or_ge (s.indexAddress + 2) 4096 with hin | hout
    · exact same (exec_ldB_of_inside hin) (exec_ldB_of_inside hin) rfl rfl rfl
    · exact same (exec_ldB_of_outside hout) (exec_ldB_of_outside hout) rfl rfl rfl
  case ldMemVx x =>
    rcases Nat.lt_or_ge (s.indexAddress + x.val) 4096 with hin | hout
    · exact same (exec_ldMemVx_of_inside hin) (exec_ldMemVx_of_inside hin) rfl rfl rfl
    · exact same (exec_ldMemVx_of_outside hout) (exec_ldMemVx_of_outside hout) rfl rfl rfl
  case ldVxMem x =>
    rcases Nat.lt_or_ge (s.indexAddress + x.val) 4096 with hin | hout
    · exact same (exec_ldVxMem_of_inside hin) (exec_ldVxMem_of_inside hin) (by simp) (by simp) (by simp)
    · exact same (exec_ldVxMem_of_outside hout) (exec_ldVxMem_of_outside hout) rfl rfl rfl
  all_goals exact same rfl rfl rfl rfl rfl

/-- Under a choice that has the state's own ST and stack, so does the answer. -/
theorem exec_withUnread_own {i : Instr} (hst : e.st = s.st) (hstack : e.stack = s.stack) (hi : e.InputsFit i s) :
    ∃ t, exec i s = .next t ∧
      exec i (s.withUnread e) = .next (t.withUnread { e with st := t.st, stack := t.stack }) := by
  obtain ⟨t, st, stack, ht, hu, hfollows⟩ := exec_withUnread (fun j _ => by rw [hstack]) hi
  obtain rfl := hfollows.keepsSt hst
  obtain rfl := hfollows.keepsStack hstack
  exact ⟨t, ht, hu⟩

/-- Settles O43: the choice is of the inputs alone, which no instruction writes. -/
theorem inputsAreReadOnlyByTheirInstructions : Obligations.InputsAreReadOnlyByTheirInstructions := by
  intro i s a b rest hagree
  obtain ⟨t, ht, hu⟩ := exec_withUnread_own (i := i) (s := { s with inputs := a :: rest })
    (e := { s.unread with inputs := b :: rest }) rfl rfl ⟨hagree.1.imp_right Eq.symm, hagree.2.imp_right Eq.symm⟩
  have hacc : t.acc = s.acc := acc_eq_of_exec (s := { s with inputs := a :: rest }) ht
  have hplen : t.plen = s.plen := plen_eq_of_exec (s := { s with inputs := a :: rest }) ht
  obtain ⟨hinputs, htick⟩ : t.inputs = a :: rest ∧ t.tickNo = s.tickNo :=
    env_eq_of_exec (s := { s with inputs := a :: rest }) ht
  refine ⟨t, ?_, ?_⟩
  · rw [ht, ← hinputs]
  · refine hu.trans ?_
    simp only [State.withUnread, State.unread, ← hacc, ← hplen, ← htick]

/-- Settles O44: the choice is of PLEN and ACC alone, and no instruction writes the inputs. -/
theorem instructionsDoNotReadPlenOrAcc : Obligations.InstructionsDoNotReadPlenOrAcc := by
  intro i s plen acc
  obtain ⟨t, ht, hu⟩ := exec_withUnread_own (i := i) (s := s)
    (e := { s.unread with plen := plen, acc := acc }) rfl rfl ⟨.inr rfl, .inr rfl⟩
  obtain ⟨hinputs, htick⟩ := env_eq_of_exec ht
  refine ⟨t, ht, hu.trans ?_⟩
  simp only [State.withUnread, State.unread, ← hinputs, ← htick]

/-! ### Over a tick and over a run -/

/-- The induction on the number of ticks for two runs at once. -/
theorem ticks_related {R : State → State → Prop}
    (hstep : ∀ s u, R s u → ∃ t v, step s = .next t ∧ step u = .next v ∧ R t v) (k : Nat) :
    ∀ s u, R s u → ∃ t v, ticks k s = .next t ∧ ticks k u = .next v ∧ R t v := by
  induction k with
  | zero => exact fun s u h => ⟨s, u, rfl, rfl, h⟩
  | succ k ih =>
    intro s u h
    obtain ⟨t, v, ht, hv, hrel⟩ := hstep s u h
    simpa only [ticks, ht, hv] using ih t v hrel

/-- The state with another ST and another stack, which neither the fetch nor the status reads. -/
def State.withStale (s : State) (st : Byte) (stack : Vector Word Config.stackDepth) : State :=
  { s with st := st, stack := stack }

/-- The choice that makes that state. -/
def State.stale (s : State) (st : Byte) (stack : Vector Word Config.stackDepth) : Unread :=
  { s.unread with st := st, stack := stack }

theorem Fetches.withStale {w : Word} (h : Fetches s w) (st : Byte) (stack : Vector Word Config.stackDepth) :
    Fetches (s.withStale st stack) w := h

section
variable {st : Byte} {stack : Vector Word Config.stackDepth}

/-- The effect of a word under another ST and other entries at SP or above. -/
theorem execWord_withStale (w : Word) (hstack : StackFits stack s) :
    ∃ t st' stack', execWord w s = .next t ∧ execWord w (s.withStale st stack) = .next (t.withStale st' stack') ∧
      (s.stale st stack).Follows st' stack' s t := by
  unfold execWord
  cases decodeWord w with
  | none => exact ⟨s, st, stack, rfl, rfl, .of_same (e := s.stale st stack) hstack rfl rfl rfl⟩
  | some i =>
    obtain ⟨t, st', stack', ht, hu, hfollows⟩ := exec_withUnread (i := i) (e := s.stale st stack) hstack
      ⟨.inr rfl, .inr rfl⟩
    obtain ⟨hinputs, htick⟩ := env_eq_of_exec ht
    refine ⟨t, st', stack', ht, hu.trans ?_, hfollows⟩
    simp only [State.withUnread, State.withStale, State.stale, State.unread, ← acc_eq_of_exec ht,
      ← plen_eq_of_exec ht, ← hinputs, ← htick]

/-- The timer step counts either ST down by the same rule. -/
theorem runTimers_withStale (t : State) (st : Byte) (stack : Vector Word Config.stackDepth) :
    ∃ st', (t.withStale st stack).runTimers = t.runTimers.withStale st' stack ∧
      (st = t.st → st' = t.runTimers.st) := by
  by_cases hf : t.fault = none
  · rw [runTimers_of_safe hf, runTimers_of_safe (s := t.withStale st stack) hf]
    unfold State.timerStep
    by_cases hacc : t.acc.val + 1 < Config.timerDivide
    · rw [dif_pos hacc, dif_pos (show (t.withStale st stack).acc.val + 1 < Config.timerDivide from hacc)]
      exact ⟨st, rfl, id⟩
    · rw [dif_neg hacc, dif_neg (show ¬ (t.withStale st stack).acc.val + 1 < Config.timerDivide from hacc)]
      exact ⟨countDown st, rfl, congrArg countDown⟩
  · rw [runTimers_of_fault hf, runTimers_of_fault (s := t.withStale st stack) hf]
    exact ⟨st, rfl, id⟩

theorem step_withStale_of_fetches {w : Word} (hfetch : Fetches s w) (hstack : StackFits stack s) :
    ∃ t st' stack', step s = .next t ∧ step (s.withStale st stack) = .next (t.withStale st' stack') ∧
      (s.stale st stack).Follows st' stack' s t := by
  obtain ⟨t, st', stack', ht, hu, hfollows⟩ := execWord_withStale (st := st) w hstack
  obtain ⟨st'', htimers, hst⟩ := runTimers_withStale t st' stack'
  refine ⟨_, st'', stack', step_of_execWord hfetch ht, ?_, ?_⟩
  · rw [step_of_execWord (hfetch.withStale st stack) hu, htimers]
    rfl
  · exact ⟨fun h => hst (hfollows.keepsSt h), fun h => (hfollows.keepsStack h).trans (runTimers_stack t).symm,
      by simpa [StackFits] using hfollows.fits⟩

theorem step_withStale (hstack : StackFits stack s) :
    ∃ t st' stack', step s = .next t ∧ step (s.withStale st stack) = .next (t.withStale st' stack') ∧
      (s.stale st stack).Follows st' stack' s t := by
  have same : ∀ {t : State}, t.sp = s.sp → t.st = s.st → t.stack = s.stack →
      (s.stale st stack).Follows st stack s t := .of_same (e := s.stale st stack) hstack
  rcases step_cases s with ⟨h, f, hf⟩ | ⟨h, hf, hend⟩ | ⟨h, hf, hlt, htop⟩ | ⟨w, hfetch, -⟩ |
    ⟨w, -, -, hfetch, -⟩ | ⟨w, -, -, hfetch, -⟩
  · exact ⟨_, st, stack, h, step_of_fault (s := s.withStale st stack) hf, same rfl rfl rfl⟩
  · exact ⟨_, st, stack, h, step_of_end (s := s.withStale st stack) hf hend, same rfl rfl rfl⟩
  · exact ⟨_, st, stack, h, step_of_fetch_fault (s := s.withStale st stack) hf hlt htop, same rfl rfl rfl⟩
  all_goals exact step_withStale_of_fetches hfetch hstack

end

/-- The second state is the first with another ST. -/
def DiffersInSt (s u : State) : Prop := ∃ st, u = { s with st := st }

/-- The second state is the first with other stack entries at SP or above. -/
def DiffersInStaleEntries (s u : State) : Prop := ∃ stack, u = { s with stack := stack } ∧ StackFits stack s

theorem step_keeps_differsInSt {u : State} (h : DiffersInSt s u) :
    ∃ t v, step s = .next t ∧ step u = .next v ∧ DiffersInSt t v := by
  obtain ⟨st, rfl⟩ := h
  obtain ⟨t, st', stack', ht, hv, hfollows⟩ := step_withStale (st := st) (stack := s.stack) fun _ _ => rfl
  obtain rfl := hfollows.keepsStack rfl
  exact ⟨t, _, ht, hv, st', rfl⟩

theorem step_keeps_differsInStaleEntries {u : State} (h : DiffersInStaleEntries s u) :
    ∃ t v, step s = .next t ∧ step u = .next v ∧ DiffersInStaleEntries t v := by
  obtain ⟨stack, rfl, hstack⟩ := h
  obtain ⟨t, st', stack', ht, hv, hfollows⟩ := step_withStale (st := s.st) hstack
  obtain rfl := hfollows.keepsSt rfl
  exact ⟨t, _, ht, hv, stack', rfl, hfollows.fits⟩

/-- Settles O45: every tick keeps the difference in ST alone. -/
theorem soundTimerNeverFlowsElsewhere : Obligations.SoundTimerNeverFlowsElsewhere := by
  intro k s st
  obtain ⟨t, v, ht, hv, st', rfl⟩ := ticks_related (fun _ _ => step_keeps_differsInSt) k s _ ⟨st, rfl⟩
  exact ⟨t, st', ht, hv⟩

/-- Settles O46: every tick keeps the difference in entries at SP or above alone. -/
theorem staleStackEntriesAreNeverRead : Obligations.StaleStackEntriesAreNeverRead := by
  intro k s stack hstack
  obtain ⟨t, v, ht, hv, stack', rfl, hstack'⟩ :=
    ticks_related (fun _ _ => step_keeps_differsInStaleEntries) k s _ ⟨stack, rfl, hstack⟩
  exact ⟨t, stack', ht, hv, hstack'⟩

end Sys2Proof.Machine
end

-- The call stack (40_control_flow.md R101, R102; 10_state.md R25).
section
namespace Sys2Proof.Machine

variable {s t : State}

/-- An answer that took a fault. -/
theorem takesFault_of_exec_eq_raise {i : Instr} {f : Fault} (h : exec i s = .next (s.raise f)) : TakesFault i f s :=
  ⟨s.raise f, h, s.raise_fault f, by simp [frame_iff]⟩

/-! ### CALL and RET -/

/-- Settles O21: where the stack is not full, CALL is a push of PC + 2 and a jump. -/
theorem callPushesTheReturnAddress : Obligations.CallPushesTheReturnAddress := by
  intro s nnn
  refine ⟨(Laws.RoundTrip.call nnn).2, fun hlt => ?_, fun hfull => ?_⟩
  · refine ⟨_, exec_call_of_lt nnn hlt, addrOperand_toNat nnn, rfl, fun k => ?_, by simp [frame_iff]⟩
    simp only [State.jump_stack, State.setStack_stack, Fin.getElem_fin, Vector.getElem_set, BitVec.ofNat_eq_ofNat,
      eq_comm]
  · exact takesFault_of_exec_eq_raise (exec_call_of_full nnn hfull)

/-- Settles O22: where the stack is not empty, RET is a pop and a jump to what was popped. -/
theorem returnPopsTheStack : Obligations.ReturnPopsTheStack := by
  intro s
  refine ⟨Laws.RoundTrip.ret.2, fun hpos => ?_, fun hempty => ?_⟩
  · refine ⟨_, exec_ret_of_ne hpos.ne', Nat.sub_add_cancel hpos, fun k hk => ?_, by simp [frame_iff]⟩
    simp only [State.jump_pc, ← hk, Nat.add_sub_cancel, Fin.getElem_fin]
  · exact takesFault_of_exec_eq_raise (exec_ret_of_empty hempty)

/-- Settles O23: CALL leaves PC + 2 in the entry below the new SP, and RET goes to that entry. -/
theorem returnResumesAfterTheCall : Obligations.ReturnResumesAfterTheCall := by
  intro s t u nnn hlt hcall hsp hstack
  obtain ⟨-, hpush, -⟩ := callPushesTheReturnAddress s nnn
  obtain ⟨t', hexec, -, hspCall, hentries, -⟩ := hpush hlt
  obtain rfl := eq_of_exec hcall hexec
  have hspRet : u.sp.val = s.sp.val + 1 := by rw [hsp, hspCall]
  obtain ⟨-, hpop, -⟩ := returnPopsTheStack u
  obtain ⟨v, hret, hspBack, hpc, -⟩ := hpop (by omega)
  let entry : Fin 16 := ⟨s.sp.val, hlt⟩
  refine ⟨v, hret, ?_, Fin.ext (by omega)⟩
  calc v.pc = u.stack[entry] := hpc entry hspRet.symm
    _ = t.stack[entry] := hstack entry (by rw [hspCall]; exact Nat.lt_succ_self _)
    _ = s.pc + 2 := (hentries entry).trans (if_pos rfl)

/-! ### Pushes and pops in sequence -/

theorem popMany_succ_eq_ok {n : Nat} {ws : List Word} {u : State} :
    popMany (n + 1) s = .ok (ws, u) ↔
      ∃ w vs v, s.pop = .ok (w, v) ∧ popMany n v = .ok (vs, u) ∧ ws = w :: vs := by
  rw [popMany]
  cases s.pop with
  | error f => simp [Except.bind]
  | ok p => cases h : popMany n p.2 <;> simp [Except.bind, Except.map, Prod.ext_iff, h, eq_comm, and_comm]

/-- One pop after n others. -/
theorem popMany_snoc {n : Nat} {w : Word} {u v : State} (hpop : u.pop = .ok (w, v)) :
    ∀ {s : State} {ws : List Word}, popMany n s = .ok (ws, u) → popMany (n + 1) s = .ok (ws ++ [w], v) := by
  induction n with
  | zero =>
    intro s ws h
    obtain ⟨rfl, rfl⟩ : [] = ws ∧ s = u := Prod.ext_iff.mp (Except.ok.inj h)
    exact popMany_succ_eq_ok.mpr ⟨w, [], v, hpop, rfl, rfl⟩
  | succ n ih =>
    intro s ws h
    obtain ⟨w', vs, s', hpop', hmany, rfl⟩ := popMany_succ_eq_ok.mp h
    exact popMany_succ_eq_ok.mpr ⟨w', vs ++ [w], s', hpop', ih hmany, rfl⟩

/-- A push stores the word at SP, keeps the entries below it and moves SP up. -/
theorem exists_push (w : Word) (h : s.sp.val < 16) :
    ∃ t, s.push w = .ok t ∧ t.sp.val = s.sp.val + 1 ∧ t.stack[s.sp.val] = w ∧ StackFits t.stack s := by
  refine ⟨_, push_of_lt w h, rfl, Vector.getElem_set_self h, fun j hj => ?_⟩
  exact Vector.getElem_set_ne h j.isLt hj.ne'

/-- A pop gives the entry below SP, keeps every entry and moves SP down. -/
theorem exists_pop {n : Nat} (hn : n < 16) (h : s.sp.val = n + 1) :
    ∃ t, s.pop = .ok (s.stack[n], t) ∧ t.sp.val = n ∧ t.stack = s.stack := by
  have hne : s.sp.val ≠ 0 := by omega
  refine ⟨s.setStack ⟨s.sp.val - 1, Nat.lt_succ_of_lt (State.sp_pred_lt hne)⟩ s.stack, ?_,
    Nat.sub_eq_of_eq_add h, rfl⟩
  simp only [pop_of_ne hne, h, Nat.add_sub_cancel]

/-- By induction on the words: the first is pushed first and stays under the others, so it is popped last. -/
theorem popMany_pushAll (ws : List Word) :
    ∀ s : State, s.sp.val + ws.length ≤ 16 →
      ∃ t u, pushAll ws s = .ok t ∧ popMany ws.length t = .ok (ws.reverse, u) ∧ u.sp = s.sp ∧ u.stack = t.stack ∧
        StackFits t.stack s := by
  induction ws with
  | nil => exact fun s _ => ⟨s, s, rfl, rfl, rfl, rfl, fun _ _ => rfl⟩
  | cons w ws ih =>
    intro s hroom
    rw [List.length_cons] at hroom
    have hlt : s.sp.val < 16 := by omega
    obtain ⟨s', hpush, hsp', hentry', hfits'⟩ := exists_push w hlt
    obtain ⟨t, u, hpushed, hpopped, hsp, hstack, hfits⟩ := ih s' (by omega)
    have hentry : u.stack[s.sp.val] = w := by
      rw [← hentry']
      have hbelow : s.sp.val < s'.sp.val := hsp' ▸ Nat.lt_succ_self _
      exact (congrArg (·[s.sp.val]) hstack).trans (hfits ⟨s.sp.val, hlt⟩ hbelow)
    obtain ⟨v, hpop, hspBack, hstackBack⟩ := exists_pop hlt (hsp ▸ hsp')
    rw [hentry] at hpop
    refine ⟨t, v, ?_, ?_, Fin.ext hspBack, hstackBack.trans hstack, fun j hj => ?_⟩
    · rw [pushAll, hpush]
      exact hpushed
    · rw [List.length_cons, List.reverse_cons]
      exact popMany_snoc hpop hpopped
    · exact (hfits j (by omega)).trans (hfits' j hj)

/-- Settles O24: what the list of pushed words leaves, and the two faults of the single operations. -/
theorem stackIsLastInFirstOut : Obligations.StackIsLastInFirstOut := by
  intro s ws
  refine ⟨fun hroom => ?_, fun w hfull => push_of_full w hfull, pop_of_empty⟩
  obtain ⟨t, u, hpushed, hpopped, hsp, hstack, -⟩ := popMany_pushAll ws s hroom
  exact ⟨t, u, hpushed, hpopped, hsp, hstack⟩

end Sys2Proof.Machine
end

-- The index register and the memory-block instructions (42_index_memory.md R131–R135; 20_memory.md R63), and
-- the timer loads (43_timers.md R141, R142).
section
namespace Sys2Proof.Machine

variable {s : State}

/-! ### Writes of I and of the timers -/

theorem indexSum_toNat (w : Word) (b : Byte) : (indexSum w b).toNat = (w.toNat + b.toNat) % 65536 := by
  rw [indexSum, BitVec.toNat_add, BitVec.toNat_setWidth_of_le (by decide)]

/-- Settles O26: ADD I,Vx is one write of I, of a sum of sixteen bits. -/
theorem addToIndexWrapsAtSixteenBits : Obligations.AddToIndexWrapsAtSixteenBits := by
  intro s x
  exact writesIndex_of_exec_eq_setIndex (Laws.RoundTrip.addI x).2 rfl (indexSum_toNat s.i (s.reg x))

/-- Settles O33: each of the two is one write of its timer before the advance of two. -/
theorem timerLoadsWriteTheTimerAlone : Obligations.TimerLoadsWriteTheTimerAlone := by
  intro s x
  exact ⟨(Laws.RoundTrip.ldDtVx x).2, ⟨_, rfl, rfl, rfl, by simp [frame_iff]⟩,
    (Laws.RoundTrip.ldStVx x).2, ⟨_, rfl, rfl, rfl, by simp [frame_iff]⟩⟩

/-! ### The bytes stored -/

theorem byte_div_toNat (a b : Byte) : (a / b).toNat = a.toNat / b.toNat := BitVec.toNat_udiv

theorem byte_mod_toNat (a b : Byte) : (a % b).toNat = a.toNat % b.toNat := BitVec.toNat_umod

/-- The registers up to V[x] as a list (R134). -/
theorem State.getElem_firstRegs (s : State) {x k : Reg} (h : k.val ≤ x.val) :
    (s.firstRegs x)[k.val]'(by rw [State.length_firstRegs]; omega) = s.reg k := by
  simp [State.firstRegs, State.reg]

theorem State.setMem_advance_frame (s : State) (m : Memory) (n : Word) :
    Frame [.mem, .pc] s ((s.setMem m).advance n) := by
  simp [frame_iff]

/-! ### Stores and the block load -/

/-- Settles O27: the digits are a span of three bytes at I. -/
theorem bcdStoresThreeDigits : Obligations.BcdStoresThreeDigits := by
  intro s x
  refine ⟨(Laws.RoundTrip.ldB x).2, fun hin => ?_, fun hout => ?_⟩
  · have digit : ∀ (k : Nat) (hk : k < 3), (s.mem.writeSpan s.indexAddress (bcdDigits (s.reg x))).read
        (s.indexAddress + k) = (bcdDigits (s.reg x))[k] := fun k hk => Memory.read_writeSpan_inside hk
    refine ⟨_, exec_ldB_of_inside hin, ?_, ?_, ?_, fun a ha => ?_, rfl, s.setMem_advance_frame _ 2#16⟩
    · exact (congrArg BitVec.toNat (digit 0 (by decide))).trans (byte_div_toNat _ _)
    · exact (congrArg BitVec.toNat (digit 1 (by decide))).trans
        ((byte_mod_toNat _ _).trans (congrArg (· % 10) (byte_div_toNat _ _)))
    · exact (congrArg BitVec.toNat (digit 2 (by decide))).trans (byte_mod_toNat _ _)
    · exact Memory.read_writeSpan_outside (by rw [length_bcdDigits]; omega)
  · exact takesFault_of_exec_eq_raise (exec_ldB_of_outside hout)

/-- Settles O28: the registers are a span of x + 1 bytes at I. -/
theorem blockStoreCopiesV0ToVx : Obligations.BlockStoreCopiesV0ToVx := by
  intro s x
  refine ⟨(Laws.RoundTrip.ldMemVx x).2, fun hin => ?_, fun hout => ?_⟩
  · refine ⟨_, exec_ldMemVx_of_inside hin, fun k hk => ?_, fun a ha => ?_, rfl, s.setMem_advance_frame _ 2#16⟩
    · exact (Memory.read_writeSpan_inside (by rw [State.length_firstRegs]; omega)).trans (s.getElem_firstRegs hk)
    · exact Memory.read_writeSpan_outside (by rw [State.length_firstRegs]; omega)
  · exact takesFault_of_exec_eq_raise (exec_ldMemVx_of_outside hout)

/-- Settles O29: the load of a span of x + 1 bytes keeps the registers above x. -/
theorem blockLoadCopiesV0ToVx : Obligations.BlockLoadCopiesV0ToVx := by
  intro s x
  refine ⟨(Laws.RoundTrip.ldVxMem x).2, fun hin => ?_, fun hout => ?_⟩
  · refine ⟨_, exec_ldVxMem_of_inside hin, fun k => ?_, by simp, by simp [frame_iff]⟩
    rw [State.reg_advance, State.reg_loadFirstRegs_readSpan]
  · exact takesFault_of_exec_eq_raise (exec_ldVxMem_of_outside hout)

/-! ### Stored code -/

theorem byte_eq_ofNat {b : Byte} {n : Nat} (h : b.toNat = n) : b = BitVec.ofNat 8 n := by
  rw [← h, BitVec.ofNat_toNat, BitVec.setWidth_eq]

/-- Where the instruction at PC goes on at the address in I, the tick after it fetches there from the memory
that the instruction left. -/
theorem fetch_of_step_of_exec {s t u : State} {w : Word} {i : Instr} (hfetch : Fetches s w)
    (hdecode : decodeWord w = some i) (hexec : exec i s = .next u) (hfault : u.fault = s.fault)
    (hpc : u.pc = s.i) (hin : s.i.toNat + 1 < 4096) (hstep : step s = .next t) :
    t.fetch = .ok (wordOfBytes (u.mem.read s.i.toNat) (u.mem.read (s.i.toNat + 1))) := by
  rw [← eq_of_step (step_of_exec hfetch hdecode hexec (hfault.trans hfetch.1)) hstep]
  unfold State.fetch
  simp only [State.nextInput_pc, State.nextInput_mem, timerStep_pc, timerStep_mem, hpc]
  exact if_pos hin

/-- Settles O30: the stored bytes stand at I, which is the address of the next fetch. -/
theorem storedCodeIsFetchedAtOnce : Obligations.StoredCodeIsFetchedAtOnce := by
  intro s t x hi hstep
  refine ⟨fun hfetch hlast hin => ?_, fun hfetch hin => ?_⟩
  · obtain ⟨hdecode, hstore, -⟩ := blockStoreCopiesV0ToVx s x
    obtain ⟨u, hexec, hread, hkeep, hpc, hframe⟩ := hstore hlast
    rw [fetch_of_step_of_exec hfetch hdecode hexec (hframe .fault (by decide)) (hpc.trans hi.symm) hin hstep]
    have hfirst : u.mem.read s.i.toNat = s.reg 0 := hread 0 (Nat.zero_le _)
    have hsecond : u.mem.read (s.i.toNat + 1) = if x.val = 0 then s.mem.read (s.i.toNat + 1) else s.reg 1 := by
      split
      · next hx => exact hkeep _ (.inr (by rw [hx]; exact Nat.lt_succ_self _))
      · next hx => exact hread 1 (Nat.one_le_iff_ne_zero.mpr hx)
    rw [hfirst, hsecond]
  · obtain ⟨hdecode, hstore, -⟩ := bcdStoresThreeDigits s x
    obtain ⟨u, hexec, hhundreds, htens, -, -, hpc, hframe⟩ := hstore hin
    rw [fetch_of_step_of_exec hfetch hdecode hexec (hframe .fault (by decide)) (hpc.trans hi.symm) (by omega) hstep,
      ← byte_eq_ofNat hhundreds, ← byte_eq_ofNat htens, State.indexAddress]

/-! ### The canonical form -/

/-- An address below every listed one reads as the power-on contents. -/
theorem Memory.read_of_forall_lt {m : Memory} {a : Nat} (h : ∀ c ∈ m, a < c.1) :
    m.read a = Memory.background a := by
  induction m with
  | nil => rfl
  | cons c rest ih =>
    obtain ⟨hc, hrest⟩ := List.forall_mem_cons.mp h
    rw [Memory.read, if_neg hc.ne]
    exact ih hrest

/-- A canonical memory is read at its first cell as no memory whose cells all lie higher is. -/
theorem Memory.read_ne_of_forall_lt {m n : Memory} {a : Nat} {v : Byte} (hm : Memory.wf ((a, v) :: m) = true)
    (hn : ∀ c ∈ n, a < c.1) : Memory.read ((a, v) :: m) a ≠ n.read a := by
  obtain ⟨-, hv, -, -⟩ := Memory.wf_cons.mp hm
  rw [Memory.read, if_pos rfl, Memory.read_of_forall_lt hn]
  exact hv

/-- A cell at the head of a canonical memory lies below those of the rest. -/
theorem Memory.forall_lt_of_wf {m : Memory} {a b : Nat} {v : Byte} (hm : Memory.wf ((b, v) :: m) = true)
    (hab : a < b) : ∀ c ∈ (b, v) :: m, a < c.1 := by
  obtain ⟨-, -, hlt, -⟩ := Memory.wf_cons.mp hm
  exact List.forall_mem_cons.mpr ⟨hab, fun c hc => hab.trans (hlt c hc)⟩

/-- Settles O31: by induction on the cells, of which the lower first one would be read in one memory only. -/
theorem canonicalMemoriesAreEqualWhenTheyReadTheSame : Obligations.CanonicalMemoriesAreEqualWhenTheyReadTheSame := by
  intro m
  induction m with
  | nil =>
    intro n _ hn h
    cases n with
    | nil => rfl
    | cons d n => exact absurd (h d.1).symm (Memory.read_ne_of_forall_lt hn (by simp))
  | cons c m ih =>
    intro n hm hn h
    obtain ⟨a, v⟩ := c
    cases n with
    | nil => exact absurd (h a) (Memory.read_ne_of_forall_lt hm (by simp))
    | cons d n =>
      obtain ⟨b, w⟩ := d
      obtain hab | rfl | hba := Nat.lt_trichotomy a b
      · exact absurd (h a) (Memory.read_ne_of_forall_lt hm (Memory.forall_lt_of_wf hn hab))
      · obtain ⟨-, -, hmlt, hmwf⟩ := Memory.wf_cons.mp hm
        obtain ⟨-, -, hnlt, hnwf⟩ := Memory.wf_cons.mp hn
        obtain rfl : v = w := by simpa [Memory.read] using h a
        have hrest : ∀ x, Memory.read m x = Memory.read n x := by
          intro x
          by_cases hx : x = a
          · rw [hx, Memory.read_of_forall_lt hmlt, Memory.read_of_forall_lt hnlt]
          · simpa [Memory.read, hx] using h x
        rw [ih n hmwf hnwf hrest]
      · exact absurd (h b).symm (Memory.read_ne_of_forall_lt hn (Memory.forall_lt_of_wf hm hba))

end Sys2Proof.Machine
end

-- The sprite on the screen (44_display.md R146, R147).
section
namespace Sys2Proof.Machine

variable {s : State} {x y : Reg} {n : Nibble}

/-! ### Which pixels the sprite covers -/

/-- A pixel on the screen by its linear index (R31). -/
theorem pixelIndex_of_lt {px py : Nat} (hx : px < 64) (hy : py < 32) : pixelIndex px py = py * 64 + px := by
  simp only [pixelIndex, Config.dispW, Config.dispH, Nat.mod_eq_of_lt hx, Nat.mod_eq_of_lt hy]

/-- A linear index on the screen is that of its column and its row. -/
theorem exists_pixel_of_lt {p : Nat} (h : p < 2048) : ∃ px py, px < 64 ∧ py < 32 ∧ p = py * 64 + px :=
  ⟨p % 64, p / 64, by omega, by omega, by omega⟩

/-- The sprite bit that lands on a pixel is whether the pixel is among those the sprite covers. -/
theorem mem_spritePixels_iff_spriteCovers {px py : Nat} (hx : px < 64) (hy : py < 32) :
    py * 64 + px ∈ spritePixels (s.mem.readSpan s.indexAddress n.toNat) (s.reg x).toNat (s.reg y).toNat ↔
      spriteCovers s x y n px py = true := by
  have hrows := n.isLt
  simp only [mem_spritePixels, spriteCovers, Config.dispW, Config.dispH, Bool.and_eq_true, decide_eq_true_eq,
    Memory.getElem?_readSpan, Option.ite_none_right_eq_some, Option.some_inj]
  constructor
  · rintro ⟨row, col, b, ⟨hrow, rfl⟩, hcol, hbit, hp⟩
    obtain ⟨hpx, hpy⟩ := pixelIndex_inj ((pixelIndex_of_lt hx hy).trans hp)
    have hcolumn : (px + 64 - (s.reg x).toNat % 64) % 64 = col := by omega
    have hline : (py + 32 - (s.reg y).toNat % 32) % 32 = row := by omega
    rw [hcolumn, hline]
    exact ⟨⟨hcol, hrow⟩, hbit⟩
  · rintro ⟨⟨hcol, hrow⟩, hbit⟩
    refine ⟨_, _, _, ⟨hrow, rfl⟩, hcol, hbit, ?_⟩
    simp only [pixelIndex, Config.dispW, Config.dispH]
    omega

/-! ### The screen and VF after DRW -/

/-- A sprite has fewer rows than the screen, so no row wraps onto another. -/
theorem length_readSpan_nibble_le (m : Memory) (a : Nat) (n : Nibble) : (m.readSpan a n.toNat).length ≤ 32 := by
  rw [Memory.length_readSpan]
  exact Nat.le_trans n.isLt.le (by decide)

/-- The screen after DRW, pixel by pixel. -/
theorem dispBit_drawn (s : State) (x y : Reg) (n : Nibble) {px py : Nat} (hx : px < 64) (hy : py < 32) :
    dispBit (s.drawn x y n).disp (py * 64 + px) =
      (dispBit s.disp (py * 64 + px) ^^ spriteCovers s x y n px py) := by
  rw [State.drawn, (drawSprite_spec (length_readSpan_nibble_le ..) _ _ _).1]
  exact congrArg _ (Bool.eq_iff_iff.mpr (decide_eq_true_iff.trans (mem_spritePixels_iff_spriteCovers hx hy)))

/-- DRW reports a collision exactly where a lit pixel went dark. -/
theorem collided_drawn_iff (s : State) (x y : Reg) (n : Nibble) :
    (s.drawn x y n).collided = true ↔ ∃ px py, px < 64 ∧ py < 32 ∧ dispBit s.disp (py * 64 + px) = true ∧
      dispBit (s.drawn x y n).disp (py * 64 + px) = false := by
  refine (drawSprite_spec (length_readSpan_nibble_le ..) _ _ _).2.trans ⟨?_, ?_⟩
  · rintro ⟨p, hp, hlit⟩
    obtain ⟨px, py, hx, hy, rfl⟩ : ∃ px py, px < 64 ∧ py < 32 ∧ p = py * 64 + px := by
      obtain ⟨_, _, _, -, -, -, rfl⟩ := mem_spritePixels.mp hp
      exact exists_pixel_of_lt (pixelIndex_lt _ _)
    refine ⟨px, py, hx, hy, hlit, ?_⟩
    rw [dispBit_drawn s x y n hx hy, hlit, (mem_spritePixels_iff_spriteCovers hx hy).mp hp, Bool.xor_self]
  · rintro ⟨px, py, hx, hy, hlit, hdark⟩
    rw [dispBit_drawn s x y n hx hy, hlit] at hdark
    exact ⟨_, (mem_spritePixels_iff_spriteCovers hx hy).mpr (by simpa using hdark), hlit⟩

theorem flagByte_eq_one_iff (b : Bool) : flagByte b = 1#8 ↔ b = true := by
  cases b <;> decide

theorem flagByte_eq_one_or_zero (b : Bool) : flagByte b = 1#8 ∨ flagByte b = 0#8 := by
  cases b <;> decide

/-- Settles O35: DRW without a fault leaves what it draws and the flag of the collision. -/
theorem drawXorsTheSpriteAndReportsCollision : Obligations.DrawXorsTheSpriteAndReportsCollision := by
  intro s x y n
  refine ⟨(Laws.RoundTrip.drw x y n).2, fun hin => ?_, fun hn hout => ?_⟩
  · refine ⟨_, exec_drw_of_inside hin, fun px py hx hy => dispBit_drawn s x y n hx hy, ?_, ?_,
      fun r hr => ?_, rfl, by simp [frame_iff]⟩
    · rw [State.reg_advance, State.reg_setReg, if_pos rfl]
      exact flagByte_eq_one_or_zero _
    · rw [State.reg_advance, State.reg_setReg, if_pos rfl, flagByte_eq_one_iff]
      exact collided_drawn_iff s x y n
    · rw [State.reg_advance, State.reg_setReg, if_neg hr, State.reg_setDisp]
  · exact takesFault_of_exec_eq_raise (exec_drw_of_outside hn hout)

/-- Without a fault every byte of the sprite is in memory. -/
theorem inside_of_exec_drw {t : State} (h : exec (.drw x y n) s = .next t) (ht : t.Safe) :
    n.toNat = 0 ∨ s.indexAddress + (n.toNat - 1) < 4096 := by
  by_contra hout
  rw [eq_of_exec h (exec_drw_of_outside (fun hn => hout (.inl hn)) (not_lt.mp fun hin => hout (.inr hin)))] at ht
  exact Option.some_ne_none _ ht

/-- Settles O36: each pixel under the sprite is flipped twice. -/
theorem drawingTwiceRestoresTheScreen : Obligations.DrawingTwiceRestoresTheScreen := by
  intro s t u v x y n _ hexec ht hdisp hmem hi hx hy hexec'
  have hin := inside_of_exec_drw hexec ht
  have hindex : u.indexAddress = s.indexAddress := congrArg BitVec.toNat hi
  have hcovers : spriteCovers u x y n = spriteCovers s x y n := by
    funext px py
    simp only [spriteCovers, hx, hy, hmem, hindex]
  have hfirst : u.disp = (s.drawn x y n).disp := by
    rw [hdisp, eq_of_exec hexec (exec_drw_of_inside hin)]
    rfl
  have hsecond : v.disp = (u.drawn x y n).disp := by
    rw [eq_of_exec hexec' (exec_drw_of_inside (hindex ▸ hin))]
    rfl
  refine display_ext fun p hp => ?_
  obtain ⟨px, py, hpx, hpy, rfl⟩ := exists_pixel_of_lt hp
  rw [hsecond, dispBit_drawn u x y n hpx hpy, hfirst, dispBit_drawn s x y n hpx hpy, hcovers, Bool.xor_assoc,
    Bool.xor_self, Bool.xor_false]

end Sys2Proof.Machine
end

-- The key skips (45_input.md R151, R152).
section
namespace Sys2Proof.Machine

/-- Settles O37: with a key number in V[x] both instructions are skips, on the key's bit and on its opposite. -/
theorem keySkipsTestTheKeyOfVx : Obligations.KeySkipsTestTheKeyOfVx := by
  intro s x
  refine ⟨fun hkey => ⟨?_, ?_⟩, fun hkey => ⟨?_, ?_⟩⟩
  · exact movesPc_of_exec_eq_skipWhen (Laws.RoundTrip.skp x).2 (exec_skp_of_le hkey) Iff.rfl
  · rw [← ite_not]
    exact movesPc_of_exec_eq_skipWhen (Laws.RoundTrip.sknp x).2 (exec_sknp_of_le hkey)
      (by rw [Bool.not_eq_true', keyDown, Bool.not_eq_true])
  · exact takesFault_of_exec_eq_raise (exec_skp_of_lt hkey)
  · exact takesFault_of_exec_eq_raise (exec_sknp_of_lt hkey)

end Sys2Proof.Machine
end

-- The host's transactions load, reset, tick and pixel (70_reset_and_hazards.md R191–R194; 10_state.md R37, R38;
-- 44_display.md R148).
section
namespace Sys2Proof.Machine

variable {b : Block}

/-! ### load -/

theorem loadable_iff {buffer : List Byte} :
    loadable buffer = true ↔ 0 < buffer.length ∧ buffer.length ≤ 3584 := by
  simp only [loadable, Config.maxProgLen, Bool.and_eq_true, decide_eq_true_eq]

theorem load_of_not_loadable {buffer : List Byte} (h : ¬ loadable buffer = true) :
    b.load buffer = .ok (.error, b) :=
  if_neg h

theorem load_of_ready {buffer : List Byte} (h : loadable buffer = true) (hphase : b.phase = .ready) :
    b.load buffer = .ok (.ok, ⟨.loaded, b.core.withProgram buffer⟩) := by
  rw [Block.load, if_pos h, hphase]

theorem load_of_off {buffer : List Byte} (h : loadable buffer = true) (hphase : b.phase = .off) :
    b.load buffer = .error .notInitialised := by
  rw [Block.load, if_pos h, hphase]

theorem load_of_loaded_or_ticked {buffer : List Byte} (h : loadable buffer = true)
    (hphase : b.phase = .loaded ∨ b.phase = .ticked) : b.load buffer = .error .loadOutsideContract := by
  obtain hphase | hphase := hphase <;> rw [Block.load, if_pos h, hphase]

theorem withProgram_plen_val {s : State} {buffer : List Byte} (h : buffer.length ≤ 3584) :
    (s.withProgram buffer).plen.val = buffer.length := by
  rw [State.withProgram_plen]
  exact Nat.mod_eq_of_lt (Nat.lt_succ_of_le h)

theorem withProgram_frame (s : State) (buffer : List Byte) : Frame [.mem, .plen] s (s.withProgram buffer) := by
  simp [frame_iff, State.reg]

/-- Settles O50: the length and then the phase decide; an accepted load is a span of bytes at 0x200. -/
theorem loadCopiesTheProgramOnce : Obligations.LoadCopiesTheProgramOnce := by
  intro b buffer
  refine ⟨fun hready hpos hle => ?_, fun hbad => ?_, fun hpos hle hphase => ?_, fun hpos hle hphase => ?_⟩
  · refine ⟨_, load_of_ready (loadable_iff.mpr ⟨hpos, hle⟩) hready, rfl, withProgram_plen_val hle,
      fun k v hk => ?_, fun a ha => Memory.read_writeSpan_outside ha, withProgram_frame _ _⟩
    obtain ⟨hlt, rfl⟩ := List.getElem?_eq_some_iff.mp hk
    exact Memory.read_writeSpan_inside hlt
  · exact load_of_not_loadable (by rw [loadable_iff]; omega)
  · exact load_of_loaded_or_ticked (loadable_iff.mpr ⟨hpos, hle⟩) hphase
  · exact load_of_off (loadable_iff.mpr ⟨hpos, hle⟩) hphase

/-! ### After the first init -/

/-- A block with a state answers each of the other transactions from that state, whatever its phase. -/
theorem reset_eq (hphase : b.phase ≠ .off) :
    b.reset = if b.core.fault.isSome then .error .resetWhileFaulted else .ok ⟨b.phase, b.core.restart⟩ := by
  unfold Block.reset
  cases h : b.phase with
  | off => exact absurd h hphase
  | ready | loaded | ticked => rfl

theorem pixel_eq (hphase : b.phase ≠ .off) (p : Nat) :
    b.pixel p = if p < 2048 then .ok (dispBit b.core.disp p) else .error .pixelIndexOutOfRange := by
  unfold Block.pixel
  cases h : b.phase with
  | off => exact absurd h hphase
  | ready | loaded | ticked => rfl

theorem tick_eq {input : TickInput} {t : State} (hphase : b.phase ≠ .off)
    (hstep : step { b.core with inputs := input :: b.core.inputs } = .next t) :
    b.tick input = .ok (tickOutput b.core t, ⟨.ticked, t⟩) := by
  unfold Block.tick
  rw [hstep]
  cases h : b.phase with
  | off => exact absurd h hphase
  | ready | loaded | ticked => rfl

theorem restart_frame (s : State) : Frame [.v, .i, .pc, .sp, .stack, .disp, .dt, .st, .acc] s s.restart := by
  simp [frame_iff]

/-- Settles O51: the restart writes constants, and FAULT decides whether it is made. -/
theorem resetRestartsInPlace : Obligations.ResetRestartsInPlace := by
  intro b hphase
  refine ⟨fun hsafe => ?_, fun hfault => ?_⟩
  · refine ⟨⟨b.phase, b.core.restart⟩, by simp [reset_eq hphase, hsafe], rfl, fun r => ?registers, rfl, rfl,
      fun k => ?stack, fun j => ?display, rfl, rfl, rfl, rfl, restart_frame b.core⟩
    case registers => exact Vector.getElem_replicate r.isLt
    case stack => exact Vector.getElem_replicate k.isLt
    case display => exact Vector.getElem_replicate j.isLt
  · rw [reset_eq hphase, if_pos (Option.isSome_iff_ne_none.mpr hfault)]

/-- Settles O52: an index below 2048 lies in one of the 256 bytes. -/
theorem pixelQueryReadsThePackedBit : Obligations.PixelQueryReadsThePackedBit := by
  intro b p hphase
  refine ⟨fun hlt => ?_, fun hge => ?_⟩
  · have hbyte : p / 8 < Config.dispBytes := by
      simp only [Config.dispBytes]
      omega
    rw [pixel_eq hphase, if_pos hlt, dispBit, Vector.getElem?_eq_getElem hbyte, Option.getD_some]
  · rw [pixel_eq hphase, if_neg hge.not_gt]

/-! ### tick -/

/-- Every tick spends the first of its inputs. -/
theorem inputs_of_step {s t : State} (h : step s = .next t) : t.inputs = s.inputs.tail := by
  rcases step_cases s with ⟨h', -⟩ | ⟨h', -⟩ | ⟨h', -⟩ | ⟨w, -, -, h'⟩ | ⟨w, i, f, -, -, -, h'⟩ |
    ⟨w, i, u, -, -, hexec, -, -, h'⟩ <;> rw [← eq_of_step h' h]
  · rfl
  · rfl
  · rfl
  · rw [State.nextInput_inputs, timerStep_inputs]
  · rfl
  · rw [State.nextInput_inputs, timerStep_inputs, (env_eq_of_exec hexec).1]

/-- The block's state with the input of the coming tick in front. -/
def State.withInput (s : State) (input : TickInput) : State := { s with inputs := input :: s.inputs }

theorem withInput_idle_frame (s : State) (input : TickInput) : Frame [.env] s (s.withInput input).idle := by
  simp [frame_iff, State.idle, State.withInput, State.reg]

/-- A stopped machine keeps its state over a tick, and outputs its status. -/
theorem tick_of_stopped {s t : State} {input : TickInput} (hstopped : ∀ pc, s.status ≠ .running pc)
    (hstep : step (s.withInput input) = .next t) : tickOutput s t = s.status ∧ Frame [.env] s t := by
  have hstatus : (s.withInput input).status = s.status := status_congr rfl rfl rfl
  have hidle := step_of_stopped (s := s.withInput input) (hstatus ▸ hstopped)
  exact ⟨tickOutput_of_stopped hstopped t, eq_of_step hidle hstep ▸ withInput_idle_frame s input⟩

/-- Settles O53: the tick is the step with its input in front; the status of the block's state decides between
the outputs. -/
theorem tickReportsItsStatus : Obligations.TickReportsItsStatus := by
  intro b input hphase
  obtain ⟨t, hstep⟩ := everyTickAnswersANextState (b.core.withInput input)
  refine ⟨_, _, tick_eq hphase hstep, rfl, hstep, inputs_of_step hstep, fun f hf => ?_, fun hsafe hend => ?_,
    fun hsafe hrunning => ?_⟩
  · have hstatus : b.core.status = .faulted f := status_eq_faulted.mpr hf
    rw [← hstatus]
    exact tick_of_stopped (by simp [hstatus]) hstep
  · have hstatus : b.core.status = .ended := status_eq_ended.mpr ⟨hsafe, hend⟩
    rw [← hstatus]
    exact tick_of_stopped (by simp [hstatus]) hstep
  · rw [tickOutput_of_running (status_eq_running.mpr ⟨rfl, hsafe, hrunning⟩)]
    exact ⟨fun f (hf : t.fault = some f) => by rw [hf], fun (hnone : t.fault = none) => by rw [hnone]⟩

end Sys2Proof.Machine
end
